-- ==== Sys2Proof/Word.lean ====
section
/-! DEFINITION. The value types of the datapath: bytes, 12-bit addresses, 4-bit indices, 16-bit words
(spec 00_scope.md R6, R9, R10; 10_state.md R22, R23, R26). Every one is unsigned. -/

namespace Sys2Proof

/-- One byte of memory, one general register, one timer (R6, R22, R33, R50). -/
abbrev Byte := BitVec 8

/-- A 12-bit address 0x000–0xFFF: PC, I, a stack entry, the operand nnn (R6, R26, R30, R31). -/
abbrev Addr := BitVec 12

/-- A nibble of an instruction word (R9). -/
abbrev Nibble := BitVec 4

/-- A register index 0–15 taken from an instruction nibble (R23). -/
abbrev RegIdx := BitVec 4

/-- A key identifier 0–15 (R6, R16). -/
abbrev Key := BitVec 4

/-- An instruction word, 16 bits (R6, R70). -/
abbrev InstrWord := BitVec 16

/-- The 16 key press flags KEY[0]..KEY[15] (R34). -/
abbrev KeyFlags := Vector Bool 16

/-- The frame buffer FB: 32 rows of 64 one-bit pixels.  Bit c of row r is FB[c][r], which is the
numbering of the `pixels` output: bit (r × 64 + c) = FB[c][r] (R35, R186; assumption log 13). -/
abbrev Screen := Vector (BitVec 64) 32

/-- Index of VF, the register the flag is written to (R11, R24). -/
def vf : RegIdx := 0xF#4

/-- The highest address, 0xFFF (R6). -/
def topAddr : Nat := 0xFFF

end Sys2Proof
end

