-- ==== Sys2Proof/Config.lean ====
section
/-! DEFINITION. What an implementation fixes (the parameters of spec 00_scope.md R7) and the one value
the spec leaves free (the random byte, R8).  The parameters are plain data that the model takes as
arguments: the state holds them (field `cfg`), no step changes them, and a statement over all states is a
statement over all parameter values.  Their defaults stand in Machine/Defaults.lean. -/

namespace Sys2Proof

/-- Which of the two writes of `WriteRF` comes last (R100). -/
inductive DestOrder where
  | flagLast    -- V[x] <- r, then VF <- f
  | resultLast  -- VF <- f, then V[x] <- r
  deriving DecidableEq, Repr

/-- The five instructions that write a result and a flag (R100). -/
inductive FlagOp where
  | add | sub | subb | shr | shl
  deriving DecidableEq, Repr

/-- The parameter `VF_DEST_ORDER`: one order for each of the five operations (R7, R100). -/
structure VfDestOrder where
  add  : DestOrder
  sub  : DestOrder
  subb : DestOrder
  shr  : DestOrder
  shl  : DestOrder
  deriving DecidableEq, Repr

/-- The parameters of R7 that instructions read.

`stackDepth` is `STACK_DEPTH` (`none` = unbounded).  `waitKeyPick` is `WAITKEY_PICK`, a function from a
non-empty set of pressed keys to one of them, written as a table: the key to pick for each listed set; a set
that is not listed (or is listed with a key that is not in it) picks its lowest key, the spec's default.  The
sets are finitely many, so every such function is some table, and the empty table is the default. -/
structure Config where
  stackDepth  : Option Nat
  vfDestOrder : VfDestOrder
  waitKeyPick : List (KeyFlags × Key)
  deriving DecidableEq, Repr

/-- The parameters of R7 that only construction reads.  `mem` lists the bytes of `RESET_MEM` that are not
0x00. -/
structure ResetParams where
  font : Vector Byte 80
  v    : Vector Byte 16
  i    : Addr
  dt   : Byte
  st   : Byte
  keys : KeyFlags
  mem  : List (Addr × Byte)
  deriving DecidableEq, Repr

/-- FREE VALUE: the random byte `RND` of the n-th draw for which the host has driven no byte (R8, R112, D14;
assumption log 1).  It has no body: nothing can evaluate it, so a statement about it holds for every byte. -/
opaque Config.freeRnd : Nat → Byte

end Sys2Proof
end

