-- ==== Sys2Proof/Machine/Defaults.lean ====
section
/-! DEFINITION. The defaults of the parameters (spec 00_scope.md R7, 10_state.md R32 and R39; decisions D4, D7,
D8, D9, D10, D13; assumption log 2 to 7).  The machine's reset state is built from these. -/

namespace Sys2Proof

/-- Glyphs 0–7 of the standard font, 5 bytes each (R32; D7). -/
def fontLow : List Byte :=
  [0xF0, 0x90, 0x90, 0x90, 0xF0] ++ [0x20, 0x60, 0x20, 0x20, 0x70] ++
  [0xF0, 0x10, 0xF0, 0x80, 0xF0] ++ [0xF0, 0x10, 0xF0, 0x10, 0xF0] ++
  [0x90, 0x90, 0xF0, 0x10, 0x10] ++ [0xF0, 0x80, 0xF0, 0x10, 0xF0] ++
  [0xF0, 0x80, 0xF0, 0x90, 0xF0] ++ [0xF0, 0x10, 0x20, 0x40, 0x40]

/-- Glyphs 8–F of the standard font (R32; D7). -/
def fontHigh : List Byte :=
  [0xF0, 0x90, 0xF0, 0x90, 0xF0] ++ [0xF0, 0x90, 0xF0, 0x10, 0xF0] ++
  [0xF0, 0x90, 0xF0, 0x90, 0x90] ++ [0xE0, 0x90, 0xE0, 0x90, 0xE0] ++
  [0xF0, 0x80, 0x80, 0x80, 0xF0] ++ [0xE0, 0x90, 0x90, 0x90, 0xE0] ++
  [0xF0, 0x80, 0xF0, 0x80, 0xF0] ++ [0xF0, 0x80, 0xF0, 0x80, 0x80]

/-- The default `FONT`, 80 bytes: glyph g is bytes 5g to 5g + 4 (R32). -/
def fontDefault : Vector Byte 80 := ⟨(fontLow ++ fontHigh).toArray, rfl⟩

/-- The address the font is loaded at (R6, R32). -/
def fontBase : Nat := 0x050

/-- The address programs are loaded at, and the reset value of PC (R6, R39, R202). -/
def programBase : Nat := 0x200

/-- The default `VF_DEST_ORDER` (R7, R100; D4). -/
def vfDestOrderDefault : VfDestOrder :=
  { add := .flagLast, sub := .flagLast, subb := .flagLast, shr := .resultLast, shl := .resultLast }

/-- The default of every parameter that instructions read (R7): unbounded stack (D10), `VF_DEST_ORDER` as
above (D4), lowest-numbered pressed key (D13). -/
def configDefault : Config :=
  { stackDepth := none, vfDestOrder := vfDestOrderDefault, waitKeyPick := [] }

/-- The default of every parameter that construction reads (R7, R39; D7, D8, D9). -/
def resetDefault : ResetParams :=
  { font := fontDefault, v := Vector.replicate 16 0x00#8, i := 0x000#12, dt := 0x00#8, st := 0x00#8,
    keys := Vector.replicate 16 false, mem := [] }

end Sys2Proof
end

