-- ==== Sys2Proof/Machine/Memory.lean ====
section
/-! DEFINITION. The memory M as data, and the read and write of one byte (spec 20_memory.md R50, R59–R61).

M is the flat array of 4096 bytes at 0x000–0xFFF.  It is held as the list of the cells that differ from
`Memory.background`, what an address reads as before anything is written to it, in rising order of address:
one canonical form, so that equal memories are equal lists. -/

namespace Sys2Proof.Machine

/-- The cells that differ from the background, addresses strictly rising. -/
abbrev Memory := List Host.Cell

/-- What an unlisted address reads as: the default font at 0x050–0x09F, the default `RESET_MEM` byte 0x00
elsewhere (R32, R39, R59; D7, D9; assumption log 3 and 4). -/
def Memory.background (a : Nat) : Byte :=
  if fontBase ≤ a then (fontLow ++ fontHigh).getD (a - fontBase) 0x00#8 else 0x00#8

/-- The byte at an address. -/
def Memory.readByte : Memory → Nat → Byte
  | [], a => Memory.background a
  | (a', b) :: m, a => if a = a' then b else Memory.readByte m a

/-- List the byte b at an address, keeping the order. -/
def Memory.insertCell : Memory → Nat → Byte → Memory
  | [], a, b => [(a, b)]
  | (a', b') :: m, a, b =>
    if a < a' then (a, b) :: (a', b') :: m
    else if a = a' then (a, b) :: m
    else (a', b') :: Memory.insertCell m a b

/-- Take an address off the list: it reads as the background again. -/
def Memory.eraseCell : Memory → Nat → Memory
  | [], _ => []
  | (a', b') :: m, a => if a = a' then Memory.eraseCell m a else (a', b') :: Memory.eraseCell m a

/-- Write one byte.  Writing what an unlisted address reads as removes the cell. -/
def Memory.writeByte (m : Memory) (a : Nat) (b : Byte) : Memory :=
  if b = Memory.background a then m.eraseCell a else m.insertCell a b

/-- Write bytes at a, a + 1, … in ascending order (R54, R61). -/
def Memory.writeBytes : Memory → Nat → List Byte → Memory
  | m, _, [] => m
  | m, a, b :: bs => Memory.writeBytes (m.writeByte a b) (a + 1) bs

/-- The canonical form: addresses strictly rising, inside the 4096 bytes, and no cell equal to the
background. -/
abbrev Memory.wf (m : Memory) : Prop :=
  m.Pairwise (fun c d => c.1 < d.1) ∧ ∀ c ∈ m, c.1 ≤ topAddr ∧ c.2 ≠ Memory.background c.1

end Sys2Proof.Machine
end

