-- ==== Sys2Proof/Machine/State.lean ====
section
/-! DEFINITION. The state of the core, plain data (spec 10_state.md R20, R39), the reasons a step stops, and
the state right after reset. -/

namespace Sys2Proof.Machine

/-- The fault kinds of 60_exceptions.md R170, each with the information its `raise` gives. -/
inductive FaultInfo where
  /-- Code 1: the fetched word w decodes to no instruction. -/
  | illegalInstruction (w : InstrWord)
  /-- Code 2: an access of len bytes from addr that runs past 0xFFF. -/
  | memoryOutOfBounds (addr : Addr) (len : Nat)
  /-- Code 3: an `AddrAdd` or `AddrSub` result outside 0x000–0xFFF, with that result. -/
  | addressOverflow (value : Int)
  /-- Code 4: Return with an empty stack. -/
  | stackUnderflow
  /-- Code 5: Call with a full bounded stack. -/
  | stackOverflow
  /-- Code 6: KeyEq or KeyNeq with Vx above 0x0F, with Vx. -/
  | invalidKey (k : Byte)
  /-- Code 7: construction with a ROM of more than 3584 bytes, with its length.  No core exists then. -/
  | loadOverflow (len : Nat)
  deriving DecidableEq, Repr

/-- The run status (R172): running, or faulted with what the fault recorded and the address A of the
instruction that raised it (R170). -/
inductive Status where
  | running
  | faulted (info : FaultInfo) (instrAddr : Addr)
  deriving DecidableEq, Repr

/-- The host's strobes (R185, R186): what happens at the core, one at a time. -/
inductive HostEvent where
  /-- `step`: one instruction step. -/
  | step
  /-- `tick60`: one timer tick. -/
  | tick60
  /-- `key_set`: set_key_pressed(key, pressed).  The host may give any number; above 15 it is rejected. -/
  | keySet (key : Nat) (pressed : Bool)
  deriving DecidableEq, Repr

/-- The architectural state `(V, PC, I, S, DT, ST, M, FB, KEY, status)` of R20, then the model's own fields:
the parameters of R7 and the inputs the host has in store. -/
structure State where
  /-- V0–VF (R22). -/
  v : Vector Byte 16
  /-- The program counter (R26). -/
  pc : Addr
  /-- The index register I (R30). -/
  i : Addr
  /-- The call stack S, top first (R31). -/
  stack : List Addr
  /-- The delay timer DT (R33). -/
  dt : Byte
  /-- The sound timer ST (R33). -/
  st : Byte
  /-- The memory M (R37, R50). -/
  mem : Memory
  /-- The frame buffer FB (R35). -/
  fb : Screen
  /-- The key press flags KEY (R34). -/
  keys : KeyFlags
  /-- The run status (R172). -/
  status : Status
  /-- MODEL'S OWN: the parameters of R7 that instructions read.  No step changes them. -/
  cfg : Config
  /-- MODEL'S OWN: the strobes the host has in store, the next one first; when none is listed the host
  strobes `step` (R177, R182, R185; assumption log 8). -/
  inputs : List HostEvent
  /-- MODEL'S OWN: the bytes the host has in store for the `rnd` port, one for each coming execution of Rand;
  when none is listed the byte is free (R8, R186; assumption log 1). -/
  rndIn : List Byte
  /-- MODEL'S OWN: how many free random bytes have been drawn (assumption log 1). -/
  rndDraws : Nat
  deriving DecidableEq, Repr

/-- Why the machine stops. -/
inductive Fault where
  /-- Raised by `step` alone, on a core whose status is Faulted, with what the status records: such a core
  takes no further step and no timer tick, and nothing clears the status (R71, R172).  No instruction answers
  with it: an instruction that raises a fault of R170 answers the next state, with the status changed.
  Safe: no run of the hardware goes on from here (D18; assumption log 11). -/
  | halted (info : FaultInfo) (instrAddr : Addr)
  deriving DecidableEq, Repr

/-- Why an instruction has no meaning. -/
inductive Refusal where
  /-- Raised by an arm of `exec` for an instruction that has no meaning yet; no arm does.  Safe. -/
  | notModelled (mnemonic : String)
  deriving DecidableEq, Repr

/-- What a step or a meaning answers. -/
abbrev Result := Host.Outcome State Fault Refusal

/-- The machine right after reset: construction with the default parameters and an empty ROM (R39, R201).
A program comes into memory through `construct` (assumption log 9). -/
def State.reset : State :=
  { v := resetDefault.v
    pc := BitVec.ofNat 12 programBase
    i := resetDefault.i
    stack := []
    dt := resetDefault.dt
    st := resetDefault.st
    mem := []
    fb := Vector.replicate 32 0#64
    keys := resetDefault.keys
    status := .running
    cfg := configDefault
    inputs := []
    rndIn := []
    rndDraws := 0 }

end Sys2Proof.Machine
end

