-- ==== Sys2Proof/Machine/Ops.lean ====
section
/-! DEFINITION. The named operations over registers, addresses, memory and the program counter, and the one
operation that takes a fault (spec 00_scope.md R10–R14; 20_memory.md R50–R55; 60_exceptions.md R170–R173).

A meaning runs on the state after the fetch, in which PC = A + 2 (30_encoding.md R72). -/

namespace Sys2Proof.Machine

/-! ## General registers (R11, R22) -/

/-- `V[x]`. -/
def State.getV (s : State) (x : RegIdx) : Byte := s.v[x.toNat]'(x.isLt)

/-- `V[x] <- b`. -/
def State.setV (s : State) (x : RegIdx) (b : Byte) : State := { s with v := s.v.set x.toNat b x.isLt }

/-- `V[k] <- bs[0]`, `V[k + 1] <- bs[1]`, … . -/
def State.setVFrom (s : State) : Nat → List Byte → State
  | _, [] => s
  | k, b :: bs => State.setVFrom (s.setV (BitVec.ofNat 4 k) b) (k + 1) bs

/-! ## Addresses (R13) -/

/-- `AddrAdd(a, k)`: a result above 0xFFF is a fault, never a wrap. -/
def addrAdd (a : Addr) (k : Nat) : Except FaultInfo Addr :=
  if a.toNat + k ≤ topAddr then .ok (BitVec.ofNat 12 (a.toNat + k))
  else .error (.addressOverflow (a.toNat + k : Nat))

/-- `AddrSub(a, k)`: a result below 0 is a fault. -/
def addrSub (a : Addr) (k : Nat) : Except FaultInfo Addr :=
  if k ≤ a.toNat then .ok (BitVec.ofNat 12 (a.toNat - k))
  else .error (.addressOverflow ((a.toNat : Int) - k))

/-! ## Memory accesses (R12, R52–R55) -/

/-- An access of n bytes from a runs past 0xFFF (R55).  An access of no bytes never does. -/
def outOfBounds (a : Addr) (n : Nat) : Bool := 1 ≤ n && topAddr < a.toNat + n - 1

/-- `MemRead(a, n)`: the n bytes at a, a + 1, … . -/
def memRead (m : Memory) (a : Addr) (n : Nat) : Except FaultInfo (List Byte) :=
  if outOfBounds a n then .error (.memoryOutOfBounds a n)
  else .ok ((List.range n).map fun k => m.readByte (a.toNat + k))

/-- `MemWrite(a, n, bs)` with n the length of bs: the check comes before any byte is written. -/
def memWrite (m : Memory) (a : Addr) (bs : List Byte) : Except FaultInfo Memory :=
  if outOfBounds a bs.length then .error (.memoryOutOfBounds a bs.length)
  else .ok (m.writeBytes a.toNat bs)

/-- `read8(a)` (R54). -/
def memRead8 (m : Memory) (a : Addr) : Byte := m.readByte a.toNat

/-- `write8(a, b)` (R54). -/
def memWrite8 (m : Memory) (a : Addr) (b : Byte) : Memory := m.writeByte a.toNat b

/-- The big-endian word of two bytes: the byte at the lower address is bits 15:8 (R51). -/
def bigEndian (b0 b1 : Byte) : InstrWord := b0 ++ b1

/-- `MemRead16(a)`, the big-endian word at a; out of bounds when a = 0xFFF (R53). -/
def memRead16 (m : Memory) (a : Addr) : Except FaultInfo InstrWord :=
  if outOfBounds a 2 then .error (.memoryOutOfBounds a 2)
  else .ok (bigEndian (m.readByte a.toNat) (m.readByte (a.toNat + 1)))

/-- `write16(a, w)`, which no instruction uses (R54). -/
def memWrite16 (m : Memory) (a : Addr) (w : InstrWord) : Except FaultInfo Memory :=
  memWrite m a [w.extractLsb' 8 8, w.extractLsb' 0 8]

/-! ## Faults (R14, R170, R172) -/

/-- The state after a fault raised by the instruction at address a: the status records the fault and a, and
PC is a again, so that nothing but the status has changed since the step began (R172). -/
def State.faultAt (s : State) (a : Addr) (e : FaultInfo) : State :=
  { s with pc := a, status := .faulted e a }

/-- A, the address the running instruction was fetched from: PC is A + 2 while it executes (R26, R72). -/
def State.instrAddr (s : State) : Addr := s.pc - 2#12

/-- `raise Fault(kind, info)` in the execute phase.  This is the core's whole exception entry: no handler, no
saved state, no vector (R173), and there is no return from it (R174; assumption log 12). -/
def State.raise (s : State) (e : FaultInfo) : State := s.faultAt s.instrAddr e

/-- Go on with the value of an operation that may fault, or take its fault.  A meaning writes state only
after its last operation that may fault, so a fault leaves no partial effect (R14). -/
def State.attempt {α : Type} (s : State) (r : Except FaultInfo α) (k : α → State) : Result :=
  match r with
  | .ok a => .next (k a)
  | .error e => .next (s.raise e)

/-! ## Program counter -/

/-- `PC <- a`. -/
def State.setPc (s : State) (a : Addr) : State := { s with pc := a }

/-- `Skip(c)`: past the next word when c holds (41_control_flow.md R125). -/
def State.skipIf (s : State) (c : Bool) : Result :=
  if c then s.attempt (addrAdd s.pc 2) s.setPc else .next s

/-! ## Call stack (R11, R31) -/

/-- The stack is bounded and full: |S| = `STACK_DEPTH` (41_control_flow.md R122). -/
def State.stackFull (s : State) : Bool := s.cfg.stackDepth == some s.stack.length

/-- `push(S, a)`. -/
def State.push (s : State) (a : Addr) : State := { s with stack := a :: s.stack }

/-! ## The random byte (R8, R112) -/

/-- Sample the `rnd` port: the byte the host has in store, or a free one (D14; assumption log 1). -/
def State.drawRnd (s : State) : Byte × State :=
  match s.rndIn with
  | b :: rest => (b, { s with rndIn := rest })
  | [] => (Config.freeRnd s.rndDraws, { s with rndDraws := s.rndDraws + 1 })

end Sys2Proof.Machine
end

