-- ==== Sys2Proof/Machine/Flags.lean ====
section
/-! DEFINITION. The flag computations and `WriteRF` (spec 10_state.md R28; 40_alu.md R100, R107–R111).  The only
flag is the value written to VF. -/

namespace Sys2Proof.Machine

/-- A flag as the byte written to VF. -/
def flagByte (f : Bool) : Byte := if f then 0x01#8 else 0x00#8

/-- Carry out of Vx + Vy: the sum is above 0xFF (R107). -/
def carryOut (a b : Byte) : Bool := 0xFF < a.toNat + b.toNat

/-- No borrow in a − b: a ≥ b (R108, R110). -/
def noBorrow (a b : Byte) : Bool := b.toNat ≤ a.toNat

/-- The bit a right shift moves out, a[0] (R109). -/
def shiftOutLow (a : Byte) : Bool := a.getLsbD 0

/-- The bit a left shift moves out, a[7] (R111). -/
def shiftOutHigh (a : Byte) : Bool := a.getLsbD 7

/-- `VF_DEST_ORDER(op)` (R7, R100). -/
def destOrder (c : Config) : FlagOp → DestOrder
  | .add => c.vfDestOrder.add
  | .sub => c.vfDestOrder.sub
  | .subb => c.vfDestOrder.subb
  | .shr => c.vfDestOrder.shr
  | .shl => c.vfDestOrder.shl

/-- `WriteRF(op, x, r, f)`: both writes, in the order the parameter gives (R100). -/
def State.writeRF (s : State) (op : FlagOp) (x : RegIdx) (r : Byte) (f : Bool) : State :=
  match destOrder s.cfg op with
  | .flagLast => (s.setV x r).setV vf (flagByte f)
  | .resultLast => (s.setV vf (flagByte f)).setV x r

end Sys2Proof.Machine
end

