-- ==== Sys2Proof/Machine/Operands.lean ====
section
/-! DEFINITION. The operand forms (spec 30_encoding.md R76, 44_index_memory.md introduction): a register, the
registers V0..Vx, memory through I, a key named by a register, an address plus a register. -/

namespace Sys2Proof.Machine

/-- The registers V0..Vx, in order (44_index_memory.md R164, R165). -/
def State.regsUpTo (s : State) (x : RegIdx) : List Byte :=
  (List.range (x.toNat + 1)).map fun k => s.getV (BitVec.ofNat 4 k)

/-- Read n bytes indirect through I; I is not changed (R56; D22). -/
def State.readAtI (s : State) (n : Nat) : Except FaultInfo (List Byte) := memRead s.mem s.i n

/-- Write bytes indirect through I; I is not changed (R56; D22). -/
def State.writeAtI (s : State) (bs : List Byte) : Except FaultInfo Memory := memWrite s.mem s.i bs

/-- `M <- m`. -/
def State.setMem (s : State) (m : Memory) : State := { s with mem := m }

/-- `I <- a`. -/
def State.setI (s : State) (a : Addr) : State := { s with i := a }

/-- `KEY[k]` (R34). -/
def State.key (s : State) (k : Key) : Bool := s.keys[k.toNat]'(k.isLt)

/-- The key named by a register: a value above 0xF names no key (41_control_flow.md R130; D12). -/
def State.keyNamedBy (s : State) (x : RegIdx) : Except FaultInfo Key :=
  if (s.getV x).toNat ≤ 0xF then .ok ((s.getV x).setWidth 4) else .error (.invalidKey (s.getV x))

/-- The pressed keys, lowest first (43_timers_input.md R151). -/
def State.pressedKeys (s : State) : List Key :=
  ((List.range 16).map (BitVec.ofNat 4)).filter s.key

/-- The entry of the `WAITKEY_PICK` table for a set of keys. -/
def lookupPick : List (KeyFlags × Key) → KeyFlags → Option Key
  | [], _ => none
  | (ks, k) :: rest, keys => if ks = keys then some k else lookupPick rest keys

/-- `WAITKEY_PICK(P)` for the set P of pressed keys, or nothing when no key is pressed (R7, R151; D13). -/
def State.pickKey (s : State) : Option Key :=
  match lookupPick s.cfg.waitKeyPick s.keys with
  | some k => if s.key k then some k else s.pressedKeys.head?
  | none => s.pressedKeys.head?

/-- The three decimal digits of a byte: hundreds, tens, units (44_index_memory.md R163). -/
def bcdDigits (b : Byte) : List Byte :=
  [BitVec.ofNat 8 (b.toNat / 100), BitVec.ofNat 8 (b.toNat / 10 % 10), BitVec.ofNat 8 (b.toNat % 10)]

end Sys2Proof.Machine
end

