-- ==== Sys2Proof/Machine/Alu.lean ====
section
/-! DEFINITION. The ALU and register instructions (spec 40_alu.md).  Each runs after the fetch and leaves
PC = A + 2; all read their operands before they write (R100, D34). -/

namespace Sys2Proof.Machine

/-- SetNum (R101): `V[x] <- nn`. -/
def execSetNum (x : RegIdx) (nn : Byte) (s : State) : Result := .next (s.setV x nn)

/-- AddNum (R102): `V[x] <- (V[x] + nn) mod 256`; VF is no carry. -/
def execAddNum (x : RegIdx) (nn : Byte) (s : State) : Result := .next (s.setV x (s.getV x + nn))

/-- Set (R103): `V[x] <- V[y]`. -/
def execSet (x y : RegIdx) (s : State) : Result := .next (s.setV x (s.getV y))

/-- Or (R104). -/
def execOr (x y : RegIdx) (s : State) : Result := .next (s.setV x (s.getV x ||| s.getV y))

/-- And (R105). -/
def execAnd (x y : RegIdx) (s : State) : Result := .next (s.setV x (s.getV x &&& s.getV y))

/-- Xor (R106). -/
def execXor (x y : RegIdx) (s : State) : Result := .next (s.setV x (s.getV x ^^^ s.getV y))

/-- Add (R107): the sum mod 256, VF = carry out. -/
def execAdd (x y : RegIdx) (s : State) : Result :=
  .next (s.writeRF .add x (s.getV x + s.getV y) (carryOut (s.getV x) (s.getV y)))

/-- Sub (R108): Vx − Vy mod 256, VF = no borrow. -/
def execSub (x y : RegIdx) (s : State) : Result :=
  .next (s.writeRF .sub x (s.getV x - s.getV y) (noBorrow (s.getV x) (s.getV y)))

/-- Subb (R110): Vy − Vx mod 256, VF = no borrow. -/
def execSubb (x y : RegIdx) (s : State) : Result :=
  .next (s.writeRF .subb x (s.getV y - s.getV x) (noBorrow (s.getV y) (s.getV x)))

/-- Shr (R109): Vx shifted right by one, VF = the bit shifted out.  The y field is ignored (R82; D3). -/
def execShr (x _y : RegIdx) (s : State) : Result :=
  .next (s.writeRF .shr x (s.getV x >>> 1) (shiftOutLow (s.getV x)))

/-- Shl (R111): Vx shifted left by one, VF = the bit shifted out.  The y field is ignored (R82; D3). -/
def execShl (x _y : RegIdx) (s : State) : Result :=
  .next (s.writeRF .shl x (s.getV x <<< 1) (shiftOutHigh (s.getV x)))

/-- Rand (R112): `V[x] <- RND & nn`, with a fresh random byte. -/
def execRand (x : RegIdx) (nn : Byte) (s : State) : Result :=
  .next (s.drawRnd.2.setV x (s.drawRnd.1 &&& nn))

end Sys2Proof.Machine
end

