-- ==== Sys2Proof/Machine/Control.lean ====
section
/-! DEFINITION. Control transfer and conditional skips (spec 41_control_flow.md).  On entry PC = A + 2. -/

namespace Sys2Proof.Machine

/-- Jump (R121): `PC <- nnn`. -/
def execJump (nnn : Addr) (s : State) : Result := .next (s.setPc nnn)

/-- Call (R122): push PC, which is A + 2, and go to nnn; a full bounded stack faults. -/
def execCall (nnn : Addr) (s : State) : Result :=
  if s.stackFull then .next (s.raise .stackOverflow) else .next ((s.push s.pc).setPc nnn)

/-- Return (R123): pop the stack into PC; an empty stack faults. -/
def execReturn (s : State) : Result :=
  match s.stack with
  | [] => .next (s.raise .stackUnderflow)
  | a :: rest => .next { s with pc := a, stack := rest }

/-- JumpV0 (R124): `PC <- AddrAdd(nnn, V0)`. -/
def execJumpV0 (nnn : Addr) (s : State) : Result :=
  s.attempt (addrAdd nnn (s.getV 0x0#4).toNat) s.setPc

/-- EqNum (R126): skip if Vx = nn. -/
def execEqNum (x : RegIdx) (nn : Byte) (s : State) : Result := s.skipIf (s.getV x == nn)

/-- NeqNum (R127): skip if Vx ≠ nn. -/
def execNeqNum (x : RegIdx) (nn : Byte) (s : State) : Result := s.skipIf (s.getV x != nn)

/-- Eq (R128): skip if Vx = Vy. -/
def execEq (x y : RegIdx) (s : State) : Result := s.skipIf (s.getV x == s.getV y)

/-- Neq (R129): skip if Vx ≠ Vy. -/
def execNeq (x y : RegIdx) (s : State) : Result := s.skipIf (s.getV x != s.getV y)

/-- KeyEq (R130): skip if the key named by Vx is pressed; Vx above 0xF faults first (R175). -/
def execKeyEq (x : RegIdx) (s : State) : Result :=
  match s.keyNamedBy x with
  | .ok k => s.skipIf (s.key k)
  | .error e => .next (s.raise e)

/-- KeyNeq (R131): skip if the key named by Vx is not pressed; Vx above 0xF faults first (R175). -/
def execKeyNeq (x : RegIdx) (s : State) : Result :=
  match s.keyNamedBy x with
  | .ok k => s.skipIf (!s.key k)
  | .error e => .next (s.raise e)

end Sys2Proof.Machine
end

