-- ==== Sys2Proof/Machine/Display.lean ====
section
/-! DEFINITION. The screen unit and the display instructions (spec 42_display.md). -/

namespace Sys2Proof.Machine

/-! ## The screen unit -/

/-- `FB[c][r]`, with c taken mod 64 and r mod 32 (R35, R140). -/
def pixel (fb : Screen) (c r : Nat) : Bool :=
  (fb[r % 32]'(Nat.mod_lt r (by decide))).getLsbD (c % 64)

/-- `FB[c][r] <- not FB[c][r]`, with c taken mod 64 and r mod 32 (R140). -/
def togglePixel (fb : Screen) (c r : Nat) : Screen :=
  fb.set (r % 32) (fb[r % 32]'(Nat.mod_lt r (by decide)) ^^^ (1#64 <<< (c % 64))) (Nat.mod_lt r (by decide))

/-- A screen with every pixel clear (R142). -/
def clearScreen : Screen := Vector.replicate 32 0#64

/-- What a drawing has done so far: the screen, and whether a collision occurred. -/
structure Drawing where
  fb : Screen
  collision : Bool
  deriving DecidableEq, Repr

/-- One sprite bit landing on pixel (c, r): a bit of 1 collides with a set pixel and toggles it; a bit of 0
does nothing (R140). -/
def drawBit (d : Drawing) (bit : Bool) (c r : Nat) : Drawing :=
  if bit then ⟨togglePixel d.fb c r, d.collision || pixel d.fb c r⟩ else d

/-- The columns col, col + 1, …, 7 of one sprite byte, most significant bit first; the fuel is how many are
left (R140). -/
def drawByte (x0 r : Nat) (b : Byte) : Nat → Drawing → Drawing
  | 0, d => d
  | left + 1, d => drawByte x0 r b left (drawBit d (b.getLsbD left) (x0 + (7 - left)) r)

/-- The rows of a sprite, the first at screen row y0 (R140). -/
def drawRows (x0 : Nat) : Nat → List Byte → Drawing → Drawing
  | _, [], d => d
  | y0, b :: bs, d => drawRows x0 (y0 + 1) bs (drawByte x0 y0 b 8 d)

/-- `ScreenDraw(x0, y0, s)` (R140): the new screen, and the collision accumulated over the whole sprite
(R141). -/
def screenDraw (fb : Screen) (x0 y0 : Nat) (spr : List Byte) : Drawing := drawRows x0 y0 spr ⟨fb, false⟩

/-! ## The instructions -/

/-- `FB <- fb`. -/
def State.setFb (s : State) (fb : Screen) : State := { s with fb := fb }

/-- Clear (R143): every pixel becomes false. -/
def execClear (s : State) : Result := .next (s.setFb clearScreen)

/-- The state after a drawing: the screen, and VF = the collision flag (R144). -/
def State.drawn (s : State) (d : Drawing) : State := (s.setFb d.fb).setV vf (flagByte d.collision)

/-- Draw (R144): n bytes at I, drawn at column Vx and row Vy; the sprite is read before any pixel changes. -/
def execDraw (x y : RegIdx) (n : Nibble) (s : State) : Result :=
  s.attempt (s.readAtI n.toNat) fun spr =>
    s.drawn (screenDraw s.fb (s.getV x).toNat (s.getV y).toNat spr)

end Sys2Proof.Machine
end

