-- ==== Sys2Proof/Machine/IndexMemory.lean ====
section
/-! DEFINITION. The index register and memory instructions (spec 44_index_memory.md).  None changes PC, and
none changes I as a side effect of an access (D22). -/

namespace Sys2Proof.Machine

/-- SetIdx (R160): `I <- nnn`. -/
def execSetIdx (nnn : Addr) (s : State) : Result := .next (s.setI nnn)

/-- AddIdx (R161): `I <- AddrAdd(I, V[x])`; VF is not written. -/
def execAddIdx (x : RegIdx) (s : State) : Result := s.attempt (addrAdd s.i (s.getV x).toNat) s.setI

/-- SetSprite (R162): `I <- AddrAdd(0x050, V[x] × 5)`, Vx not masked. -/
def execSetSprite (x : RegIdx) (s : State) : Result :=
  s.attempt (addrAdd (BitVec.ofNat 12 fontBase) ((s.getV x).toNat * 5)) s.setI

/-- StoreBcd (R163): the three decimal digits of Vx at I, I + 1, I + 2. -/
def execStoreBcd (x : RegIdx) (s : State) : Result :=
  s.attempt (s.writeAtI (bcdDigits (s.getV x))) s.setMem

/-- Store (R164): V0..Vx at I, I + 1, … . -/
def execStore (x : RegIdx) (s : State) : Result := s.attempt (s.writeAtI (s.regsUpTo x)) s.setMem

/-- Load (R165): V0..Vx from I, I + 1, … . -/
def execLoad (x : RegIdx) (s : State) : Result :=
  s.attempt (s.readAtI (x.toNat + 1)) fun bs => s.setVFrom 0 bs

end Sys2Proof.Machine
end

