-- ==== Sys2Proof/Machine/TimersInput.lean ====
section
/-! DEFINITION. The timer and key-input instructions (spec 43_timers_input.md). -/

namespace Sys2Proof.Machine

/-- GetDelay (R150): `V[x] <- DT`. -/
def execGetDelay (x : RegIdx) (s : State) : Result := .next (s.setV x s.dt)

/-- WaitKey (R151): store the picked pressed key, or go back to A when no key is pressed. -/
def execWaitKey (x : RegIdx) (s : State) : Result :=
  match s.pickKey with
  | some k => .next (s.setV x (k.setWidth 8))
  | none => s.attempt (addrSub s.pc 2) s.setPc

/-- SetDelay (R152): `DT <- V[x]`. -/
def execSetDelay (x : RegIdx) (s : State) : Result := .next { s with dt := s.getV x }

/-- SetSound (R153): `ST <- V[x]`. -/
def execSetSound (x : RegIdx) (s : State) : Result := .next { s with st := s.getV x }

end Sys2Proof.Machine
end

