-- ==== Sys2Proof/Syntax.lean ====
section
/-! DEFINITION. The instructions: one constructor for each of the 34 rows of spec/opcode_table.json, in the
table's order, under the names of spec 00_scope.md R17 (`Return` is `ret`, since return is a word of Lean).
The operands are those of 30_encoding.md R76, each of exactly the width of its field. -/

namespace Sys2Proof

/-- The 34 instruction forms (R77).  `x`, `y` are register indices, `nn` an immediate byte, `nnn` a 12-bit
address, `n` a sprite height (R74, R76). -/
inductive Instr where
  | clear                             -- 00E0
  | ret                               -- 00EE
  | jump      (nnn : Addr)            -- 1nnn
  | call      (nnn : Addr)            -- 2nnn
  | eqNum     (x : RegIdx) (nn : Byte)   -- 3xnn
  | neqNum    (x : RegIdx) (nn : Byte)   -- 4xnn
  | eq        (x y : RegIdx)          -- 5xy0
  | setNum    (x : RegIdx) (nn : Byte)   -- 6xnn
  | addNum    (x : RegIdx) (nn : Byte)   -- 7xnn
  | set       (x y : RegIdx)          -- 8xy0
  | or        (x y : RegIdx)          -- 8xy1
  | and       (x y : RegIdx)          -- 8xy2
  | xor       (x y : RegIdx)          -- 8xy3
  | add       (x y : RegIdx)          -- 8xy4
  | sub       (x y : RegIdx)          -- 8xy5
  | shr       (x y : RegIdx)          -- 8xy6, y ignored (R82)
  | subb      (x y : RegIdx)          -- 8xy7
  | shl       (x y : RegIdx)          -- 8xyE, y ignored (R82)
  | neq       (x y : RegIdx)          -- 9xy0
  | setIdx    (nnn : Addr)            -- Annn
  | jumpV0    (nnn : Addr)            -- Bnnn
  | rand      (x : RegIdx) (nn : Byte)   -- Cxnn
  | draw      (x y : RegIdx) (n : Nibble) -- Dxyn
  | keyEq     (x : RegIdx)            -- Ex9E
  | keyNeq    (x : RegIdx)            -- ExA1
  | getDelay  (x : RegIdx)            -- Fx07
  | waitKey   (x : RegIdx)            -- Fx0A
  | setDelay  (x : RegIdx)            -- Fx15
  | setSound  (x : RegIdx)            -- Fx18
  | addIdx    (x : RegIdx)            -- Fx1E
  | setSprite (x : RegIdx)            -- Fx29
  | storeBcd  (x : RegIdx)            -- Fx33
  | store     (x : RegIdx)            -- Fx55
  | load      (x : RegIdx)            -- Fx65
  deriving DecidableEq, Repr

end Sys2Proof
end

