-- ==== Sys2Proof/Machine/Dispatch.lean ====
section
/-! DEFINITION. The execute phase: one meaning for each constructor of Instr (spec 30_encoding.md R71, R77). -/

namespace Sys2Proof.Machine

/-- `execute(ins, RND)` on the state after the fetch, in which PC = A + 2 (R71, R72). -/
def exec (i : Instr) (s : State) : Host.Outcome State Fault Refusal :=
  match i with
  | .clear => Sys2Proof.Machine.execClear s
  | .ret => Sys2Proof.Machine.execReturn s
  | .jump nnn => Sys2Proof.Machine.execJump nnn s
  | .call nnn => Sys2Proof.Machine.execCall nnn s
  | .eqNum x nn => Sys2Proof.Machine.execEqNum x nn s
  | .neqNum x nn => Sys2Proof.Machine.execNeqNum x nn s
  | .eq x y => Sys2Proof.Machine.execEq x y s
  | .setNum x nn => Sys2Proof.Machine.execSetNum x nn s
  | .addNum x nn => Sys2Proof.Machine.execAddNum x nn s
  | .set x y => Sys2Proof.Machine.execSet x y s
  | .or x y => Sys2Proof.Machine.execOr x y s
  | .and x y => Sys2Proof.Machine.execAnd x y s
  | .xor x y => Sys2Proof.Machine.execXor x y s
  | .add x y => Sys2Proof.Machine.execAdd x y s
  | .sub x y => Sys2Proof.Machine.execSub x y s
  | .shr x y => Sys2Proof.Machine.execShr x y s
  | .subb x y => Sys2Proof.Machine.execSubb x y s
  | .shl x y => Sys2Proof.Machine.execShl x y s
  | .neq x y => Sys2Proof.Machine.execNeq x y s
  | .setIdx nnn => Sys2Proof.Machine.execSetIdx nnn s
  | .jumpV0 nnn => Sys2Proof.Machine.execJumpV0 nnn s
  | .rand x nn => Sys2Proof.Machine.execRand x nn s
  | .draw x y n => Sys2Proof.Machine.execDraw x y n s
  | .keyEq x => Sys2Proof.Machine.execKeyEq x s
  | .keyNeq x => Sys2Proof.Machine.execKeyNeq x s
  | .getDelay x => Sys2Proof.Machine.execGetDelay x s
  | .waitKey x => Sys2Proof.Machine.execWaitKey x s
  | .setDelay x => Sys2Proof.Machine.execSetDelay x s
  | .setSound x => Sys2Proof.Machine.execSetSound x s
  | .addIdx x => Sys2Proof.Machine.execAddIdx x s
  | .setSprite x => Sys2Proof.Machine.execSetSprite x s
  | .storeBcd x => Sys2Proof.Machine.execStoreBcd x s
  | .store x => Sys2Proof.Machine.execStore x s
  | .load x => Sys2Proof.Machine.execLoad x s

end Sys2Proof.Machine
end

