-- ==== Sys2Proof/Machine/Events.lean ====
section
/-! DEFINITION. The host's other events, timer ticks and key changes, and the outputs (spec 60_exceptions.md
R170, R181, R183, R184, R186; 10_state.md R36). -/

namespace Sys2Proof.Machine

/-- A timer one tick later: decremented, floor at zero (R181). -/
def tickDown (t : Byte) : Byte := if t = 0x00#8 then 0x00#8 else t - 1#8

/-- `TimerTick` (R181).  A Faulted core takes no tick (R172). -/
def timerTick (s : State) : State :=
  match s.status with
  | .running => { s with dt := tickDown s.dt, st := tickDown s.st }
  | .faulted _ _ => s

/-- `set_key_pressed(key, pressed)` (R184): a number above 15 is rejected and changes nothing, and a strobe
on a Faulted core does nothing (R186; assumption log 11 and 14). -/
def setKeyPressed (key : Nat) (pressed : Bool) (s : State) : State :=
  match s.status with
  | .running => if h : key < 16 then { s with keys := s.keys.set key pressed h } else s
  | .faulted _ _ => s

/-- `get_pixels()`: pixel FB[c][r] of the snapshot (R183). -/
def getPixels (s : State) (c r : Nat) : Bool := pixel s.fb c r

/-- The `pixels` output: bit (r × 64 + c) is FB[c][r] (R186). -/
def pixelsOut (s : State) : List Bool := (List.range 2048).map fun k => pixel s.fb (k % 64) (k / 64)

/-- `get_sound_active()`: ST > 0 (R36, R183). -/
def soundActive (s : State) : Bool := 0 < s.st.toNat

/-- The cause code of a fault kind (R170). -/
def FaultInfo.code : FaultInfo → Nat
  | .illegalInstruction _ => 1
  | .memoryOutOfBounds _ _ => 2
  | .addressOverflow _ => 3
  | .stackUnderflow => 4
  | .stackOverflow => 5
  | .invalidKey _ => 6
  | .loadOverflow _ => 7

/-- The code of the `status` output: 0 while Running (R170, R186). -/
def statusCode (s : State) : Nat :=
  match s.status with
  | .running => 0
  | .faulted e _ => e.code

end Sys2Proof.Machine
end

