-- ==== Sys2Proof/WellFormed.lean ====
section
/-! DEFINITION. The range checks of the value types (spec 00_scope.md R4, R13, R16; 10_state.md R23;
60_exceptions.md R184) and the check of an instruction built from them.

A number becomes an address, a register index, a key, a byte or a sprite height only through its check.  The
operand fields of `Instr` have exactly the widths of the encoding (30_encoding.md R76), so the checks cannot
fail on a term of `Instr`: `Instr.wellFormed` holds of every term, which is what R78 says (no field is
reserved, every value of every field is legal). -/

namespace Sys2Proof

/-- The source's Address check: a value in [0, 4095] (R16). -/
def isAddr (n : Nat) : Bool := n ≤ 0xFFF

/-- The source's RegisterIndex check: an integer in [0, 15] (R23). -/
def isRegIdx (n : Nat) : Bool := n ≤ 0xF

/-- The source's Key check: a 4-bit key identifier (R16, R184). -/
def isKey (n : Nat) : Bool := n ≤ 0xF

/-- An 8-bit immediate (R76). -/
def isByte (n : Nat) : Bool := n ≤ 0xFF

/-- A sprite height 0–15 (R76). -/
def isHeight (n : Nat) : Bool := n ≤ 0xF

/-- Address construction: fails on a number above 0xFFF (R13, R16). -/
def newAddr (n : Nat) : Option Addr := if isAddr n then some (BitVec.ofNat 12 n) else none

/-- Register index construction: fails on a number above 15 (R23). -/
def newRegIdx (n : Nat) : Option RegIdx := if isRegIdx n then some (BitVec.ofNat 4 n) else none

/-- Key construction: fails on a number above 15 (R16, R184). -/
def newKey (n : Nat) : Option Key := if isKey n then some (BitVec.ofNat 4 n) else none

/-- Immediate construction (R76). -/
def newByte (n : Nat) : Option Byte := if isByte n then some (BitVec.ofNat 8 n) else none

/-- Sprite height construction (R76). -/
def newHeight (n : Nat) : Option Nibble := if isHeight n then some (BitVec.ofNat 4 n) else none

/-- Every operand of the instruction passes the check of its type (R76, R78). -/
def Instr.wellFormed : Instr → Bool
  | .clear | .ret => true
  | .jump nnn | .call nnn | .setIdx nnn | .jumpV0 nnn => isAddr nnn.toNat
  | .eqNum x nn | .neqNum x nn | .setNum x nn | .addNum x nn | .rand x nn =>
      isRegIdx x.toNat && isByte nn.toNat
  | .eq x y | .neq x y | .set x y | .or x y | .and x y | .xor x y | .add x y | .sub x y | .shr x y
  | .subb x y | .shl x y => isRegIdx x.toNat && isRegIdx y.toNat
  | .draw x y n => isRegIdx x.toNat && isRegIdx y.toNat && isHeight n.toNat
  | .keyEq x | .keyNeq x | .getDelay x | .waitKey x | .setDelay x | .setSound x | .addIdx x
  | .setSprite x | .storeBcd x | .store x | .load x => isRegIdx x.toNat

end Sys2Proof
end

