-- ==== Sys2Proof/Decode.lean ====
section
/-! DEFINITION. Decoding and encoding (spec 30_encoding.md R70–R85).  `decode` is a total function from a
16-bit word to one instruction or a rejection by name (R73); it takes the first row of `opcodeTable` whose
fixed nibbles the word has (R77).  `encode` is written from the same rows. -/

namespace Sys2Proof

/-! ## Fields of a word (R74) -/

/-- `op`, bits 15:12. -/
def fieldOp (w : InstrWord) : Nibble := w.extractLsb' 12 4
/-- `x`, bits 11:8. -/
def fieldX (w : InstrWord) : RegIdx := w.extractLsb' 8 4
/-- `y`, bits 7:4. -/
def fieldY (w : InstrWord) : RegIdx := w.extractLsb' 4 4
/-- `n`, bits 3:0. -/
def fieldN (w : InstrWord) : Nibble := w.extractLsb' 0 4
/-- `nn`, bits 7:0. -/
def fieldNN (w : InstrWord) : Byte := w.extractLsb' 0 8
/-- `nnn`, bits 11:0. -/
def fieldNNN (w : InstrWord) : Addr := w.extractLsb' 0 12

/-- The big-endian word of two bytes in memory order (20_memory.md R51). -/
def wordOf (b0 b1 : Byte) : InstrWord := b0 ++ b1
/-- The byte of a word at the lower address: bits 15:8 (R51). -/
def wordHi (w : InstrWord) : Byte := w.extractLsb' 8 8
/-- The byte of a word at the higher address: bits 7:0 (R51). -/
def wordLo (w : InstrWord) : Byte := w.extractLsb' 0 8

/-! ## The opcode map (R77) -/

/-- A row of the opcode map: the group nibble, the fixed values of the other three nibbles (`none` where the
nibble belongs to an operand), and the instruction read from a word of the row. -/
structure Row where
  n3 : Nibble
  n2 : Option Nibble
  n1 : Option Nibble
  n0 : Option Nibble
  build : InstrWord → Instr

/-- A nibble agrees with a pattern that may fix it. -/
def nibbleFits (p : Option Nibble) (v : Nibble) : Bool :=
  match p with
  | some f => v == f
  | none => true

/-- The word has the row's fixed nibbles (R77). -/
def Row.fits (r : Row) (w : InstrWord) : Bool :=
  fieldOp w == r.n3 && nibbleFits r.n2 (fieldX w) && nibbleFits r.n1 (fieldY w) && nibbleFits r.n0 (fieldN w)

/-- Format Z: the whole word is fixed (R75). -/
def rowZ (n1 n0 : Nibble) (i : Instr) : Row := ⟨0x0, some 0x0, some n1, some n0, fun _ => i⟩
/-- Format A: a 12-bit address (R75). -/
def rowA (op : Nibble) (f : Addr → Instr) : Row := ⟨op, none, none, none, fun w => f (fieldNNN w)⟩
/-- Format XI: a register and an immediate byte (R75). -/
def rowXI (op : Nibble) (f : RegIdx → Byte → Instr) : Row :=
  ⟨op, none, none, none, fun w => f (fieldX w) (fieldNN w)⟩
/-- Format XY: two registers and a fixed function nibble (R75, R81). -/
def rowXY (op n : Nibble) (f : RegIdx → RegIdx → Instr) : Row :=
  ⟨op, none, none, some n, fun w => f (fieldX w) (fieldY w)⟩
/-- Format XYN: two registers and a height (R75). -/
def rowXYN (op : Nibble) (f : RegIdx → RegIdx → Nibble → Instr) : Row :=
  ⟨op, none, none, none, fun w => f (fieldX w) (fieldY w) (fieldN w)⟩
/-- Format XF: a register and a fixed function byte, given by its two nibbles (R75, R81). -/
def rowXF (op n1 n0 : Nibble) (f : RegIdx → Instr) : Row :=
  ⟨op, none, some n1, some n0, fun w => f (fieldX w)⟩

/-- The rows of R77, groups 0 to 7. -/
def opcodeTableLow : List Row :=
  [ rowZ 0xE 0x0 .clear, rowZ 0xE 0xE .ret,
    rowA 0x1 .jump, rowA 0x2 .call,
    rowXI 0x3 .eqNum, rowXI 0x4 .neqNum, rowXY 0x5 0x0 .eq,
    rowXI 0x6 .setNum, rowXI 0x7 .addNum ]

/-- The rows of R77, groups 8 and 9. -/
def opcodeTableXY : List Row :=
  [ rowXY 0x8 0x0 .set, rowXY 0x8 0x1 .or, rowXY 0x8 0x2 .and, rowXY 0x8 0x3 .xor,
    rowXY 0x8 0x4 .add, rowXY 0x8 0x5 .sub, rowXY 0x8 0x6 .shr, rowXY 0x8 0x7 .subb,
    rowXY 0x8 0xE .shl, rowXY 0x9 0x0 .neq ]

/-- The rows of R77, groups A to F. -/
def opcodeTableHigh : List Row :=
  [ rowA 0xA .setIdx, rowA 0xB .jumpV0, rowXI 0xC .rand, rowXYN 0xD .draw,
    rowXF 0xE 0x9 0xE .keyEq, rowXF 0xE 0xA 0x1 .keyNeq,
    rowXF 0xF 0x0 0x7 .getDelay, rowXF 0xF 0x0 0xA .waitKey, rowXF 0xF 0x1 0x5 .setDelay,
    rowXF 0xF 0x1 0x8 .setSound, rowXF 0xF 0x1 0xE .addIdx, rowXF 0xF 0x2 0x9 .setSprite,
    rowXF 0xF 0x3 0x3 .storeBcd, rowXF 0xF 0x5 0x5 .store, rowXF 0xF 0x6 0x5 .load ]

/-- The decodable words, 34 rows (R77). -/
def opcodeTable : List Row := opcodeTableLow ++ opcodeTableXY ++ opcodeTableHigh

/-- Why bytes are no instruction: one name for each group that has illegal words (R79). -/
inductive Reject where
  | truncated                  -- fewer than two bytes (R70)
  | group0 (w : InstrWord)     -- 0nnn other than 00E0 and 00EE (R79, R80)
  | group5 (w : InstrWord)     -- 5xyn with n ≠ 0 (R79, R81)
  | group8 (w : InstrWord)     -- 8xyn with n in 8, 9, A, B, C, D, F (R79)
  | group9 (w : InstrWord)     -- 9xyn with n ≠ 0 (R79, R81)
  | groupE (w : InstrWord)     -- Exnn with nn other than 9E, A1 (R79)
  | groupF (w : InstrWord)     -- Fxnn with an unlisted nn (R79)
  | otherGroup (w : InstrWord) -- no word: the other groups have no illegal words (R79)
  deriving DecidableEq, Repr

/-- The name of a rejected word's group (R79). -/
def rejectOf (w : InstrWord) : Reject :=
  if fieldOp w = 0x0 then .group0 w
  else if fieldOp w = 0x5 then .group5 w
  else if fieldOp w = 0x8 then .group8 w
  else if fieldOp w = 0x9 then .group9 w
  else if fieldOp w = 0xE then .groupE w
  else if fieldOp w = 0xF then .groupF w
  else .otherGroup w

/-- Decoding of one word: the first row it fits, or a rejection by name (R73, R77, R79). -/
def decode (w : InstrWord) : Except Reject Instr :=
  match opcodeTable.find? (·.fits w) with
  | some r => .ok (r.build w)
  | none => .error (rejectOf w)

/-- Decoding of the bytes at an address: one instruction of exactly two bytes, big-endian, and the bytes
after it (R51, R70). -/
def decodeBytes : List Byte → Except Reject (Instr × List Byte)
  | b0 :: b1 :: rest =>
    match decode (wordOf b0 b1) with
    | .ok i => .ok (i, rest)
    | .error r => .error r
  | _ => .error .truncated

/-! ## Encoding -/

/-- The word of an instruction (R75, R77). -/
def encode : Instr → InstrWord
  | .clear         => 0x00E0#16
  | .ret           => 0x00EE#16
  | .jump nnn      => 0x1#4 ++ nnn
  | .call nnn      => 0x2#4 ++ nnn
  | .eqNum x nn    => 0x3#4 ++ x ++ nn
  | .neqNum x nn   => 0x4#4 ++ x ++ nn
  | .eq x y        => 0x5#4 ++ x ++ y ++ 0x0#4
  | .setNum x nn   => 0x6#4 ++ x ++ nn
  | .addNum x nn   => 0x7#4 ++ x ++ nn
  | .set x y       => 0x8#4 ++ x ++ y ++ 0x0#4
  | .or x y        => 0x8#4 ++ x ++ y ++ 0x1#4
  | .and x y       => 0x8#4 ++ x ++ y ++ 0x2#4
  | .xor x y       => 0x8#4 ++ x ++ y ++ 0x3#4
  | .add x y       => 0x8#4 ++ x ++ y ++ 0x4#4
  | .sub x y       => 0x8#4 ++ x ++ y ++ 0x5#4
  | .shr x y       => 0x8#4 ++ x ++ y ++ 0x6#4
  | .subb x y      => 0x8#4 ++ x ++ y ++ 0x7#4
  | .shl x y       => 0x8#4 ++ x ++ y ++ 0xE#4
  | .neq x y       => 0x9#4 ++ x ++ y ++ 0x0#4
  | .setIdx nnn    => 0xA#4 ++ nnn
  | .jumpV0 nnn    => 0xB#4 ++ nnn
  | .rand x nn     => 0xC#4 ++ x ++ nn
  | .draw x y n    => 0xD#4 ++ x ++ y ++ n
  | .keyEq x       => 0xE#4 ++ x ++ 0x9#4 ++ 0xE#4
  | .keyNeq x      => 0xE#4 ++ x ++ 0xA#4 ++ 0x1#4
  | .getDelay x    => 0xF#4 ++ x ++ 0x0#4 ++ 0x7#4
  | .waitKey x     => 0xF#4 ++ x ++ 0x0#4 ++ 0xA#4
  | .setDelay x    => 0xF#4 ++ x ++ 0x1#4 ++ 0x5#4
  | .setSound x    => 0xF#4 ++ x ++ 0x1#4 ++ 0x8#4
  | .addIdx x      => 0xF#4 ++ x ++ 0x1#4 ++ 0xE#4
  | .setSprite x   => 0xF#4 ++ x ++ 0x2#4 ++ 0x9#4
  | .storeBcd x    => 0xF#4 ++ x ++ 0x3#4 ++ 0x3#4
  | .store x       => 0xF#4 ++ x ++ 0x5#4 ++ 0x5#4
  | .load x        => 0xF#4 ++ x ++ 0x6#4 ++ 0x5#4

/-- The bytes of an instruction in memory order (R51, R70). -/
def encodeBytes (i : Instr) : List Byte := [wordHi (encode i), wordLo (encode i)]

/-! ## The table's numbering of bits -/

/-- The instruction read from a table word: the low `nbits` bits of `w` (the bits above are 0), laid out
as two bytes, the high byte at the lower address (R51), and given to the decoder.  Every row is one 16-bit
word (R70), so there is nothing above bit 15. -/
def decodeTableWord (nbits w : Nat) : Option Instr :=
  let word := BitVec.ofNat 16 (w % 2 ^ nbits)
  match decodeBytes [wordHi word, wordLo word] with
  | .ok (i, _) => some i
  | .error _ => none

end Sys2Proof
end

