-- ==== Sys2Proof/Machine/Fetch.lean ====
section
/-! DEFINITION. Fetching an instruction (spec 30_encoding.md R71, R72), and placing one in memory. -/

namespace Sys2Proof.Machine

/-- The fetch: the word at A = PC and the address A + 2, or the fault of the read, or else of the increment
(R72, R175). -/
def fetch (s : State) : Except FaultInfo (InstrWord × Addr) :=
  match memRead16 s.mem s.pc with
  | .error e => .error e
  | .ok w =>
    match addrAdd s.pc 2 with
    | .error e => .error e
    | .ok a => .ok (w, a)

/-- Store the two bytes of a word at an address, the high byte first (R51); what would fall past 0xFFF is
left out. -/
def placeWord (m : Memory) (a : Addr) (w : InstrWord) : Memory :=
  if outOfBounds a 2 then m else (m.writeByte a.toNat (wordHi w)).writeByte (a.toNat + 1) (wordLo w)

/-- The strobes the host has in store, from its next instruction step on. -/
def fromNextStep : List HostEvent → List HostEvent
  | [] => []
  | .step :: q => .step :: q
  | .tick60 :: q => fromNextStep q
  | .keySet _ _ :: q => fromNextStep q

/-- The state in which the very next step runs the instruction of the word: the word stands at PC, the core
runs, and the host's next strobe is `step` (assumption log 9). -/
def State.placed (s : State) (w : InstrWord) : State :=
  { s with mem := placeWord s.mem s.pc w, status := .running, inputs := fromNextStep s.inputs }

end Sys2Proof.Machine
end

