-- ==== Sys2Proof/Machine/Step.lean ====
section
/-! DEFINITION. One step of the machine: one event at the core (spec 30_encoding.md R71; 60_exceptions.md R172,
R177, R185). -/

namespace Sys2Proof.Machine

/-- `Step` (R71): fetch, decode, execute.  A fault of the fetch or of the decode is recorded with PC as it was
before the step (R172). -/
def instrStep (s : State) : Result :=
  match fetch s with
  | .error e => .next (s.faultAt s.pc e)
  | .ok (w, a) =>
    match decode w with
    | .error _ => .next (s.faultAt s.pc (.illegalInstruction w))
    | .ok i => exec i (s.setPc a)

/-- The host's next strobe, on a running core: what it has in store, else an instruction step (R177, R185). -/
def nextEvent (s : State) : Result :=
  match s.inputs with
  | [] => instrStep s
  | .step :: q => instrStep { s with inputs := q }
  | .tick60 :: q => .next (timerTick { s with inputs := q })
  | .keySet k b :: q => .next (setKeyPressed k b { s with inputs := q })

/-- One step: the next event at a running core.  A Faulted core takes none (R172). -/
def step (s : State) : Host.Outcome State Fault Refusal :=
  match s.status with
  | .running => nextEvent s
  | .faulted e a => .fault (.halted e a)

/-- `s` with the instruction of the table word `w` stored where the next step fetches, and nothing standing
before that step (assumption log 9). -/
def State.withFetchWord (s : State) (nbits w : Nat) : State :=
  s.placed (BitVec.ofNat 16 (w % 2 ^ nbits))

end Sys2Proof.Machine
end

