-- ==== Sys2Proof/Machine/Construct.lean ====
section
/-! DEFINITION. Construction, the only reset (spec 70_reset_and_hazards.md R200–R202; 10_state.md R39). -/

namespace Sys2Proof.Machine

/-- The longest ROM that fits, 3584 bytes (R201; D26). -/
def romMax : Nat := 3584

/-- `RESET_MEM(a)`: the byte listed for the address, the first if it is listed twice, else 0x00 (D9). -/
def resetByte : List (Addr × Byte) → Nat → Byte
  | [], _ => 0x00#8
  | (a', b) :: rest, a => if a = a'.toNat then b else resetByte rest a

/-- `M[a] <- RESET_MEM(a)` for the listed bytes; the other addresses hold 0x00 (D9). -/
def resetMemory : List (Addr × Byte) → Memory
  | [] => []
  | (a, b) :: rest => (resetMemory rest).writeByte a.toNat b

/-- The memory after construction: `RESET_MEM`, then the font, then the ROM (R201). -/
def constructMemory (p : ResetParams) (rom : List Byte) : Memory :=
  ((resetMemory p.mem).writeBytes fontBase p.font.toList).writeBytes programBase rom

/-- `Construct(ROM)` for given parameters (R201).  A ROM of more than 3584 bytes is `LoadOverflow`, and then
there is no core (assumption log 17). -/
def construct (c : Config) (p : ResetParams) (rom : List Byte) : Except FaultInfo State :=
  if romMax < rom.length then .error (.loadOverflow rom.length)
  else .ok
    { v := p.v
      pc := BitVec.ofNat 12 programBase
      i := p.i
      stack := []
      dt := p.dt
      st := p.st
      mem := constructMemory p rom
      fb := Vector.replicate 32 0#64
      keys := p.keys
      status := .running
      cfg := c
      inputs := []
      rndIn := []
      rndDraws := 0 }

end Sys2Proof.Machine
end

