-- ==== Sys2Proof/Safety.lean ====
section
/-! DEFINITION. What claims call a good state, an idle core and a safe run (spec 60_exceptions.md R172, R191). -/

namespace Sys2Proof.Machine

/-- The stack is no deeper than `STACK_DEPTH`, if that is bounded (10_state.md R31). -/
def State.stackFits (s : State) : Bool :=
  match s.cfg.stackDepth with
  | none => true
  | some d => s.stack.length ≤ d

/-- The status records no `LoadOverflow`: that fault arises only at construction, and then no core exists
(R170). -/
def State.noLoadOverflow (s : State) : Bool :=
  match s.status with
  | .faulted (.loadOverflow _) _ => false
  | _ => true

/-- The invariant of the machine: memory in its canonical form and inside 0x000–0xFFF, the stack within its
bound, and no `LoadOverflow` status. -/
abbrev State.Inv (s : State) : Prop := s.mem.wf ∧ s.stackFits = true ∧ s.noLoadOverflow = true

/-- The core is idle at p: Running, PC = p ≤ 0xFFD, and the word at p is a Jump to p (R191). -/
abbrev State.IdleAt (s : State) (p : Addr) : Prop :=
  s.status = .running ∧ s.pc = p ∧ p.toNat ≤ 0xFFD ∧ memRead16 s.mem p = .ok (0x1#4 ++ p)

/-- A run of n steps is safe when no fault stops it and its last state is Running. -/
def SafeFor : Nat → State → Prop
  | 0, s => s.status = .running
  | n + 1, s =>
    match step s with
    | .next t => SafeFor n t
    | .fault _ => False
    | .refused _ => False

end Sys2Proof.Machine
end

