-- ==== Sys2Proof/Certificates/Slice0/Obligations.lean ====
section
/-! DEFINITION. The statements for the provers, in the order of the spec's files.

The statements about `exec` are about the execute phase: on entry PC = A + 2, where A is the address of the
instruction (30_encoding.md R72). -/

namespace Sys2Proof.Claims

open Sys2Proof.Machine

/-- The parts of the state an instruction may change besides general registers and memory bytes. -/
inductive Part where
  | pc | i | stack | dt | st | screen | rnd
  deriving DecidableEq, Repr

/-- The frame: from s to t nothing changes but the registers `regs`, the parts `parts` and the memory bytes
`bytes`.  The key flags, the run status, the parameters and the host's strobes in store never change. -/
structure Frame (s t : State) (regs : RegIdx → Prop) (parts : List Part) (bytes : Nat → Prop) : Prop where
  regs   : ∀ r, ¬ regs r → t.getV r = s.getV r
  mem    : ∀ a, ¬ bytes a → t.mem.readByte a = s.mem.readByte a
  pc     : Part.pc ∉ parts → t.pc = s.pc
  i      : Part.i ∉ parts → t.i = s.i
  stack  : Part.stack ∉ parts → t.stack = s.stack
  dt     : Part.dt ∉ parts → t.dt = s.dt
  st     : Part.st ∉ parts → t.st = s.st
  fb     : Part.screen ∉ parts → t.fb = s.fb
  rnd    : Part.rnd ∉ parts → t.rndIn = s.rndIn ∧ t.rndDraws = s.rndDraws
  keys   : t.keys = s.keys
  status : t.status = s.status
  cfg    : t.cfg = s.cfg
  inputs : t.inputs = s.inputs

/-- No register. -/
def noReg (_ : RegIdx) : Prop := False

/-- No byte of memory. -/
def noByte (_ : Nat) : Prop := False

/-- The state in which the execute phase of an instruction has raised a fault: PC is A again, the status
records the fault and A, and nothing else differs from before the step (R172). -/
def faulted (s : State) (e : FaultInfo) : State :=
  { s with pc := s.pc - 2#12, status := .faulted e (s.pc - 2#12) }

/-- The instruction completes and changes only register x, to the value v. -/
def WritesReg (i : Instr) (s : State) (x : RegIdx) (v : Nat) : Prop :=
  ∃ t, exec i s = .next t ∧ (t.getV x).toNat = v ∧ Frame s t (· = x) [] noByte

/-- The instruction completes, writes the result r to Vx and the flag f to VF, and changes nothing else.  When
x is VF the later write of `VF_DEST_ORDER(op)` stays. -/
def WritesResultAndFlag (i : Instr) (s : State) (op : FlagOp) (x : RegIdx) (r f : Nat) : Prop :=
  ∃ t, exec i s = .next t ∧
    (x ≠ vf → (t.getV x).toNat = r ∧ (t.getV vf).toNat = f) ∧
    (x = vf → (t.getV vf).toNat = if destOrder s.cfg op = .flagLast then f else r) ∧
    Frame s t (fun q => q = x ∨ q = vf) [] noByte

/-- The instruction is a conditional skip on the condition c: it adds 2 to PC when c holds, leaves PC when c
fails, and faults when c holds and A + 4 is above 0xFFF. -/
def SkipsOn (i : Instr) (c : Prop) (s : State) : Prop :=
  (c → s.pc.toNat ≤ 0xFFD →
    ∃ t, exec i s = .next t ∧ t.pc.toNat = s.pc.toNat + 2 ∧ Frame s t noReg [.pc] noByte) ∧
  (¬ c → ∃ t, exec i s = .next t ∧ Frame s t noReg [] noByte) ∧
  (c → 0xFFD < s.pc.toNat → exec i s = .next (faulted s (.addressOverflow (s.pc.toNat + 2 : Nat))))

/-- The n bytes at I lie inside 0x000–0xFFF. -/
def InBounds (s : State) (n : Nat) : Prop := n = 0 ∨ s.i.toNat + n - 1 ≤ 0xFFF

/-- The sprite's bit that lands on pixel (c, r) when the sprite is drawn at (x0, y0): column col of its byte
row, most significant bit first, where c = (x0 + col) mod 64 and r = (y0 + row) mod 32; no bit outside its 8
columns and its rows. -/
def spriteBit (x0 y0 : Nat) (spr : List Byte) (c r : Nat) : Bool :=
  let col := (c + 64 - x0 % 64) % 64
  let row := (r + 32 - y0 % 32) % 32
  decide (col < 8) && (spr.getD row 0#8).getLsbD (7 - col)

/-- The bytes at a, a + 1, …, a + n − 1. -/
def bytesAt (m : Memory) (a n : Nat) : List Byte := (List.range n).map fun k => m.readByte (a + k)

/-- The first entry of the `WAITKEY_PICK` table for the set of pressed keys names the key p. -/
def PickEntry (s : State) (p : Key) : Prop :=
  ∃ pre rest, s.cfg.waitKeyPick = pre ++ (s.keys, p) :: rest ∧ ∀ e ∈ pre, e.1 ≠ s.keys

/-- The standard hexadecimal font as R32 tabulates it, one row for each glyph. -/
def standardGlyphs : List (List Byte) :=
  [[0xF0, 0x90, 0x90, 0x90, 0xF0],  -- 0
   [0x20, 0x60, 0x20, 0x20, 0x70],  -- 1
   [0xF0, 0x10, 0xF0, 0x80, 0xF0],  -- 2
   [0xF0, 0x10, 0xF0, 0x10, 0xF0],  -- 3
   [0x90, 0x90, 0xF0, 0x10, 0x10],  -- 4
   [0xF0, 0x80, 0xF0, 0x10, 0xF0],  -- 5
   [0xF0, 0x80, 0xF0, 0x90, 0xF0],  -- 6
   [0xF0, 0x10, 0x20, 0x40, 0x40]]  -- 7
  ++
  [[0xF0, 0x90, 0xF0, 0x90, 0xF0],  -- 8
   [0xF0, 0x90, 0xF0, 0x10, 0xF0],  -- 9
   [0xF0, 0x90, 0xF0, 0x90, 0x90],  -- A
   [0xE0, 0x90, 0xE0, 0x90, 0xE0],  -- B
   [0xF0, 0x80, 0x80, 0x80, 0xF0],  -- C
   [0xE0, 0x90, 0x90, 0x90, 0xE0],  -- D
   [0xF0, 0x80, 0xF0, 0x80, 0xF0],  -- E
   [0xF0, 0x80, 0xF0, 0x80, 0x80]]  -- F

/-- The fault that the execute phase of an instruction raises in a state, if any (R171). -/
def FaultsWith (i : Instr) (s : State) (e : FaultInfo) : Prop :=
  let skips (c : Prop) : Prop := c ∧ 0xFFD < s.pc.toNat ∧ e = .addressOverflow (s.pc.toNat + 2 : Nat)
  let access (n : Nat) : Prop := ¬ InBounds s n ∧ e = .memoryOutOfBounds s.i n
  let badKey (x : RegIdx) : Prop := 0xF < (s.getV x).toNat ∧ e = .invalidKey (s.getV x)
  let pressed (x : RegIdx) : Option Bool := s.keys[(s.getV x).toNat]?
  match i with
  | .eqNum x nn => skips (s.getV x = nn)
  | .neqNum x nn => skips (s.getV x ≠ nn)
  | .eq x y => skips (s.getV x = s.getV y)
  | .neq x y => skips (s.getV x ≠ s.getV y)
  | .keyEq x => badKey x ∨ skips (pressed x = some true)
  | .keyNeq x => badKey x ∨ skips (pressed x = some false)
  | .call _ => s.cfg.stackDepth = some s.stack.length ∧ e = .stackOverflow
  | .ret => s.stack = [] ∧ e = .stackUnderflow
  | .jumpV0 nnn =>
    0xFFF < nnn.toNat + (s.getV 0x0#4).toNat ∧ e = .addressOverflow (nnn.toNat + (s.getV 0x0#4).toNat : Nat)
  | .addIdx x => 0xFFF < s.i.toNat + (s.getV x).toNat ∧ e = .addressOverflow (s.i.toNat + (s.getV x).toNat : Nat)
  | .draw _ _ n => access n.toNat
  | .storeBcd _ => access 3
  | .store x => access (x.toNat + 1)
  | .load x => access (x.toNat + 1)
  | _ => False

/-- The registers an instruction may write (the table of R25). -/
def writesRegs : Instr → RegIdx → Prop
  | .setNum x _, r | .rand x _, r | .getDelay x, r | .waitKey x, r | .addNum x _, r => r = x
  | .set x _, r | .or x _, r | .and x _, r | .xor x _, r => r = x
  | .add x _, r | .sub x _, r | .subb x _, r | .shr x _, r | .shl x _, r => r = x ∨ r = vf
  | .draw _ _ _, r => r = vf
  | .load x, r => r.toNat ≤ x.toNat
  | _, _ => False

/-- The bytes of memory an instruction may write (R56). -/
def writesBytes (s : State) : Instr → Nat → Prop
  | .storeBcd _, a => s.i.toNat ≤ a ∧ a < s.i.toNat + 3
  | .store x, a => s.i.toNat ≤ a ∧ a < s.i.toNat + x.toNat + 1
  | _, _ => False

/-- The state of a result, with a change made to it; a stop stays a stop. -/
def mapNext (f : State → State) : Result → Result
  | .next t => .next (f t)
  | .fault r => .fault r
  | .refused r => .refused r

end Sys2Proof.Claims

open Sys2Proof Sys2Proof.Machine Sys2Proof.Claims

/-! ## Values and memory (00_scope.md, 20_memory.md) -/

/-- R13: `AddrAdd` and `AddrSub` give the exact sum and difference inside 0x000–0xFFF, and fault with the
exact result outside it; nothing wraps. -/
def Obligations.AddressArithmeticIsCheckedNotWrapped : Prop :=
  ∀ (a : Addr) (k : Nat),
    (a.toNat + k ≤ 0xFFF → ∃ b, addrAdd a k = .ok b ∧ b.toNat = a.toNat + k) ∧
    (0xFFF < a.toNat + k → addrAdd a k = .error (.addressOverflow (a.toNat + k : Nat))) ∧
    (k ≤ a.toNat → ∃ b, addrSub a k = .ok b ∧ b.toNat + k = a.toNat) ∧
    (a.toNat < k → addrSub a k = .error (.addressOverflow ((a.toNat : Int) - k)))

/-- R12: `MemRead`, `MemRead16` and `MemWrite`.  In bounds a read gives the bytes in order and a write puts each
byte in its place and leaves every other address alone; the word is big-endian; out of bounds each is a fault;
an access of no bytes never faults. -/
def Obligations.MemoryPrimitivesReadAndWriteInBounds : Prop :=
  ∀ (m : Memory) (a : Addr) (n : Nat) (bs : List Byte),
    (n = 0 ∨ a.toNat + n - 1 ≤ 0xFFF → memRead m a n = .ok (bytesAt m a.toNat n)) ∧
    (1 ≤ n → 0xFFF < a.toNat + n - 1 → memRead m a n = .error (.memoryOutOfBounds a n)) ∧
    (a.toNat ≤ 0xFFE → ∃ w, memRead16 m a = .ok w ∧
      w.toNat = (m.readByte a.toNat).toNat * 256 + (m.readByte (a.toNat + 1)).toNat) ∧
    (a.toNat = 0xFFF → memRead16 m a = .error (.memoryOutOfBounds a 2)) ∧
    (bs.length = 0 ∨ a.toNat + bs.length - 1 ≤ 0xFFF → ∃ m', memWrite m a bs = .ok m' ∧
      (∀ k (h : k < bs.length), m'.readByte (a.toNat + k) = bs[k]) ∧
      (∀ b, b < a.toNat ∨ a.toNat + bs.length ≤ b → m'.readByte b = m.readByte b)) ∧
    (1 ≤ bs.length → 0xFFF < a.toNat + bs.length - 1 →
      memWrite m a bs = .error (.memoryOutOfBounds a bs.length))

/-- The word form of the memory unit: a word written at an address reads back, and so does a byte.  `write16` is an
inference the spec marks as its own (R54). -/
def Obligations.WrittenWordsAndBytesReadBack : Prop :=
  ∀ (m : Memory) (a : Addr) (w : InstrWord) (b : Byte),
    (a.toNat ≤ 0xFFE → ∃ m', memWrite16 m a w = .ok m' ∧ memRead16 m' a = .ok w) ∧
    (a.toNat = 0xFFF → memWrite16 m a w = .error (.memoryOutOfBounds a 2)) ∧
    memRead8 (memWrite8 m a b) a = b

/-- Memory holds one canonical form: two well-formed memories that read the same at every address are the same
data.  The model's own (assumption log 10). -/
def Obligations.EqualReadsMeanEqualMemories : Prop :=
  ∀ m m' : Memory, m.wf → m'.wf → (∀ a, m.readByte a = m'.readByte a) → m = m'

/-! ## Encoding (30_encoding.md) -/

/-- Decoding the word of an instruction gives the instruction back, with every operand at every value. -/
def Obligations.DecodeOfEncodeIsTheInstruction : Prop := ∀ i : Instr, decode (encode i) = .ok i

/-- Every decodable word is the word of the instruction it decodes to: no bit of it is dropped, the ignored y
of Shr and Shl among them. -/
def Obligations.EncodeOfDecodeIsTheWord : Prop := ∀ (w : InstrWord) (i : Instr), decode w = .ok i → encode i = w

/-- R83: the four decode examples of the source. -/
def Obligations.SourceDecodeExamplesHold : Prop :=
  decode 0x00E0#16 = .ok .clear ∧ decode 0x1ABC#16 = .ok (.jump 0xABC#12) ∧
  decode 0xFA33#16 = .ok (.storeBcd 0xA#4) ∧ decode 0x0123#16 = .error (.group0 0x0123#16)

/-- The words that are no instruction, group by group, each rejected under its group's name; no other group has
one. -/
def Obligations.IllegalWordsAreExactlyTheListedOnes : Prop :=
  ∀ w : InstrWord,
    (decode w = .error (.group0 w) ↔ w.toNat / 0x1000 = 0x0 ∧ w ≠ 0x00E0#16 ∧ w ≠ 0x00EE#16) ∧
    (decode w = .error (.group5 w) ↔ w.toNat / 0x1000 = 0x5 ∧ w.toNat % 16 ≠ 0) ∧
    (decode w = .error (.group8 w) ↔ w.toNat / 0x1000 = 0x8 ∧ w.toNat % 16 ∈ [8, 9, 0xA, 0xB, 0xC, 0xD, 0xF]) ∧
    (decode w = .error (.group9 w) ↔ w.toNat / 0x1000 = 0x9 ∧ w.toNat % 16 ≠ 0) ∧
    (decode w = .error (.groupE w) ↔ w.toNat / 0x1000 = 0xE ∧ w.toNat % 256 ∉ [0x9E, 0xA1]) ∧
    (decode w = .error (.groupF w) ↔ w.toNat / 0x1000 = 0xF ∧
      w.toNat % 256 ∉ [0x07, 0x0A, 0x15, 0x18, 0x1E, 0x29, 0x33, 0x55, 0x65]) ∧
    (∀ r, decode w = .error r → r ∈ [.group0 w, .group5 w, .group8 w, .group9 w, .groupE w, .groupF w])

/-- No word fits two rows of the opcode table. -/
def Obligations.OpcodeRowsDoNotOverlap : Prop :=
  opcodeTable.Pairwise fun r r' => ∀ w : InstrWord, ¬ (r.fits w = true ∧ r'.fits w = true)

/-! ## The step (30_encoding.md, 60_exceptions.md) -/

/-- A step runs the decoded instruction: on a running core whose next strobe is an instruction step (none in
store, or `step` first), with PC at most 0xFFD and the big-endian word at PC decoding to i, a step is `exec i` on
the state with PC advanced by 2.  The strobes in store are the model's own (assumption log 8). -/
def Obligations.StepRunsTheDecodedInstruction : Prop :=
  ∀ (s : State) (i : Instr) (q : List HostEvent), s.status = .running →
    s.inputs = .step :: q ∨ (s.inputs = [] ∧ q = []) → s.pc.toNat ≤ 0xFFD →
    decode (s.mem.readByte s.pc.toNat ++ s.mem.readByte (s.pc.toNat + 1)) = .ok i →
    step s = exec i { s with pc := s.pc + 2#12, inputs := q }

/-- A step that cannot fetch or decode: at 0xFFF the fetch, at 0xFFE the increment faults whatever memory holds;
elsewhere a word that is no instruction faults.  Only the status changes (and the strobe is taken), and PC stays
A.  Rests on decisions D1, D2, D18, D31. -/
def Obligations.StepFaultsWhereNothingCanBeFetchedOrDecoded : Prop :=
  ∀ (s : State) (q : List HostEvent), s.status = .running →
    s.inputs = .step :: q ∨ (s.inputs = [] ∧ q = []) →
    (s.pc = 0xFFF#12 →
      step s = .next { s with inputs := q, status := .faulted (.memoryOutOfBounds 0xFFF#12 2) 0xFFF#12 }) ∧
    (s.pc = 0xFFE#12 →
      step s = .next { s with inputs := q, status := .faulted (.addressOverflow 0x1000) 0xFFE#12 }) ∧
    (s.pc.toNat ≤ 0xFFD → ∀ r,
      decode (s.mem.readByte s.pc.toNat ++ s.mem.readByte (s.pc.toNat + 1)) = .error r →
      step s = .next { s with
        inputs := q
        status := .faulted
          (.illegalInstruction (s.mem.readByte s.pc.toNat ++ s.mem.readByte (s.pc.toNat + 1))) s.pc })

/-- A step whose next strobe is a timer tick or a key change performs it and runs no instruction.  The strobes
in store are the model's own (assumption log 8). -/
def Obligations.StepPerformsTheHostsNextEvent : Prop :=
  ∀ (s : State) (q : List HostEvent), s.status = .running →
    (s.inputs = .tick60 :: q → ∃ t, step s = .next t ∧ t.dt.toNat = s.dt.toNat - 1 ∧
      t.st.toNat = s.st.toNat - 1 ∧ t = { s with inputs := q, dt := t.dt, st := t.st }) ∧
    (∀ k b, s.inputs = .keySet k b :: q → ∃ t, step s = .next t ∧
      (∀ j (h : j < 16), t.keys[j] = if j = k then b else s.keys[j]) ∧
      t = { s with inputs := q, keys := t.keys })

/-- A Faulted core takes no step, no timer tick and no key change, and nothing clears its status.  That the step
of such a core is the host interface's stop is the model's choice (assumption log 11); rests on D18. -/
def Obligations.FaultedCoreTakesNoEvent : Prop :=
  ∀ (s : State) (e : FaultInfo) (a : Addr), s.status = .faulted e a →
    step s = .fault (.halted e a) ∧ timerTick s = s ∧ ∀ k b, setKeyPressed k b s = s

/-- A fault is precise: whatever the instruction, a step that leaves the core Faulted changes nothing but the
status, which records the address PC had (and the strobe is taken); PC, registers, memory and screen are as before
the step.  Rests on D18. -/
def Obligations.FaultingStepChangesOnlyTheStatus : Prop :=
  ∀ s t : State, step s = .next t → t.status ≠ .running →
    ∃ e, t = { s with inputs := s.inputs.tail, status := .faulted e s.pc }

/-- The execute phase raises a fault exactly where the table of R171 says, and that fault; in every other case, PC
being A + 2 and so at least 2, it leaves the status alone. -/
def Obligations.ExecutePhaseFaultsExactlyWhereListed : Prop :=
  ∀ (i : Instr) (s : State),
    (∀ e, FaultsWith i s e → exec i s = .next (faulted s e)) ∧
    (2 ≤ s.pc.toNat → (∀ e, ¬ FaultsWith i s e) → ∃ t, exec i s = .next t ∧ t.status = s.status)

/-- The invariant of the machine (memory in canonical form inside 0x000–0xFFF, stack within its bound, no
`LoadOverflow` status) is kept by every step. -/
def Obligations.EveryStepKeepsTheInvariant : Prop := ∀ s t : State, s.Inv → step s = .next t → t.Inv

/-- The invariant holds right after reset. -/
def Obligations.ResetMeetsTheInvariant : Prop := State.reset.Inv

/-- No step changes the parameters of R7. -/
def Obligations.NoStepChangesTheParameters : Prop := ∀ s t : State, step s = .next t → t.cfg = s.cfg

/-! ## Which instruction changes which state (10_state.md, 20_memory.md) -/

/-- A general register changes only under an instruction that the table of R25 says writes it; VF only as a
destination or under the six flag writers. -/
def Obligations.RegistersHaveOnlyTheirListedWriters : Prop :=
  ∀ (i : Instr) (s t : State) (r : RegIdx), exec i s = .next t → t.getV r ≠ s.getV r → writesRegs i r

/-- A byte of memory changes only under StoreBcd (3 bytes at I) and Store (x + 1 bytes at I). -/
def Obligations.MemoryHasOnlyItsListedWriters : Prop :=
  ∀ (i : Instr) (s t : State) (a : Nat), exec i s = .next t → t.mem.readByte a ≠ s.mem.readByte a →
    writesBytes s i a

/-- R35: a pixel changes only under Draw and Clear; no timer tick and no key change touches the screen, and the
snapshot the host reads is the screen. -/
def Obligations.ScreenIsChangedByDrawAndClearAlone : Prop :=
  (∀ (i : Instr) (s t : State), exec i s = .next t → t.fb ≠ s.fb → i = .clear ∨ ∃ x y n, i = .draw x y n) ∧
  (∀ (s : State) (k : Nat) (b : Bool), (timerTick s).fb = s.fb ∧ (setKeyPressed k b s).fb = s.fb) ∧
  (∀ (s : State) (c r : Nat) (hc : c < 64) (hr : r < 32), getPixels s c r = (s.fb[r]).getLsbD c)

/-- The stack changes only under Call and Return; I only under SetIdx, AddIdx and SetSprite; DT only under SetDelay
and ST only under SetSound (timer ticks apart). -/
def Obligations.StackIndexAndTimersHaveOnlyTheirListedWriters : Prop :=
  ∀ (i : Instr) (s t : State), exec i s = .next t →
    (t.stack ≠ s.stack → i = .ret ∨ ∃ a, i = .call a) ∧
    (t.i ≠ s.i → (∃ a, i = .setIdx a) ∨ (∃ x, i = .addIdx x) ∨ ∃ x, i = .setSprite x) ∧
    (t.dt ≠ s.dt → ∃ x, i = .setDelay x) ∧
    (t.st ≠ s.st → ∃ x, i = .setSound x)

/-- Only the host changes the key flags, and only KeyEq, KeyNeq and WaitKey read them: every other
instruction does the same under any flags.  The strobes in store are the model's own (assumption log 8). -/
def Obligations.KeysAreChangedByTheHostAndReadByThreeInstructions : Prop :=
  (∀ s t : State, step s = .next t → t.keys ≠ s.keys → ∃ k b q, s.inputs = .keySet k b :: q) ∧
  (∀ (i : Instr) (s : State) (ks : KeyFlags),
    (∀ x, i ≠ .keyEq x) → (∀ x, i ≠ .keyNeq x) → (∀ x, i ≠ .waitKey x) →
    exec i { s with keys := ks } = mapNext (fun t => { t with keys := ks }) (exec i s))

/-- No instruction reads ST: under any sound timer an instruction does the same to all the other state. -/
def Obligations.NoInstructionReadsTheSoundTimer : Prop :=
  ∀ (i : Instr) (s : State) (b : Byte),
    mapNext (fun t => { t with st := 0#8 }) (exec i { s with st := b }) =
      mapNext (fun t => { t with st := 0#8 }) (exec i s)

/-! ## ALU and register instructions (40_alu.md) -/

/-- SetNum, AddNum and Set: the new value of Vx, and nothing else, VF not written with a carry.  The semantics are
the spec's general knowledge (G2). -/
def Obligations.MovesAndAddImmediateWriteOnlyVx : Prop :=
  ∀ (x y : RegIdx) (nn : Byte) (s : State),
    WritesReg (.setNum x nn) s x nn.toNat ∧
    WritesReg (.addNum x nn) s x (((s.getV x).toNat + nn.toNat) % 256) ∧
    WritesReg (.set x y) s x (s.getV y).toNat

/-- Or, And and Xor, bit by bit, and nothing else, VF not reset.  The semantics are the spec's general knowledge
(G2). -/
def Obligations.LogicalOperationsWriteOnlyVx : Prop :=
  ∀ (x y : RegIdx) (s : State),
    (∃ t, exec (.or x y) s = .next t ∧ Frame s t (· = x) [] noByte ∧
      ∀ b, (t.getV x).getLsbD b = ((s.getV x).getLsbD b || (s.getV y).getLsbD b)) ∧
    (∃ t, exec (.and x y) s = .next t ∧ Frame s t (· = x) [] noByte ∧
      ∀ b, (t.getV x).getLsbD b = ((s.getV x).getLsbD b && (s.getV y).getLsbD b)) ∧
    (∃ t, exec (.xor x y) s = .next t ∧ Frame s t (· = x) [] noByte ∧
      ∀ b, (t.getV x).getLsbD b = ((s.getV x).getLsbD b ^^ (s.getV y).getLsbD b))

/-- R107: Add (8xy4) writes the sum mod 256 and the carry. -/
def Obligations.AddWritesSumAndCarry : Prop :=
  ∀ (x y : RegIdx) (s : State),
    decode (0x8#4 ++ x ++ y ++ 0x4#4) = .ok (.add x y) ∧
    WritesResultAndFlag (.add x y) s .add x (((s.getV x).toNat + (s.getV y).toNat) % 256)
      (if 0xFF < (s.getV x).toNat + (s.getV y).toNat then 1 else 0)

/-- R108: Sub (8xy5) writes Vx − Vy mod 256 and 1 iff no borrow. -/
def Obligations.SubWritesDifferenceAndNoBorrow : Prop :=
  ∀ (x y : RegIdx) (s : State),
    decode (0x8#4 ++ x ++ y ++ 0x5#4) = .ok (.sub x y) ∧
    WritesResultAndFlag (.sub x y) s .sub x (((s.getV x).toNat + 256 - (s.getV y).toNat) % 256)
      (if (s.getV y).toNat ≤ (s.getV x).toNat then 1 else 0)

/-- R110: Subb (8xy7) writes Vy − Vx mod 256 to Vx and 1 iff no borrow. -/
def Obligations.SubbWritesReversedDifferenceAndNoBorrow : Prop :=
  ∀ (x y : RegIdx) (s : State),
    decode (0x8#4 ++ x ++ y ++ 0x7#4) = .ok (.subb x y) ∧
    WritesResultAndFlag (.subb x y) s .subb x (((s.getV y).toNat + 256 - (s.getV x).toNat) % 256)
      (if (s.getV x).toNat ≤ (s.getV y).toNat then 1 else 0)

/-- Shr and Shl shift Vx itself by one and write the bit shifted out, whatever the y field holds.  The form is
decision D3. -/
def Obligations.ShiftsWriteShiftedVxAndTheBitShiftedOut : Prop :=
  ∀ (x y : RegIdx) (s : State),
    WritesResultAndFlag (.shr x y) s .shr x ((s.getV x).toNat / 2) ((s.getV x).toNat % 2) ∧
    WritesResultAndFlag (.shl x y) s .shl x ((s.getV x).toNat * 2 % 256) ((s.getV x).toNat / 128)

/-- Rand writes RND AND nn: RND is the byte the host has in store, else the free byte of this draw, and the next
Rand draws afresh.  Every bit outside nn is 0 whatever RND is.  RND as an unconstrained input is decision D14; the
store is the model's own (assumption log 1). -/
def Obligations.RandMasksAFreshByte : Prop :=
  ∀ (x : RegIdx) (nn : Byte) (s : State), ∃ t rnd, exec (.rand x nn) s = .next t ∧
    (∀ b, (t.getV x).getLsbD b = (BitVec.getLsbD (rnd : Byte) b && nn.getLsbD b)) ∧
    (∀ b rest, s.rndIn = b :: rest → rnd = b ∧ t.rndIn = rest ∧ t.rndDraws = s.rndDraws) ∧
    (s.rndIn = [] → rnd = Config.freeRnd s.rndDraws ∧ t.rndIn = [] ∧ t.rndDraws = s.rndDraws + 1) ∧
    Frame s t (· = x) [.rnd] noByte

/-! ## Control transfer and skips (41_control_flow.md) -/

/-- R121: Jump (1nnn) writes nnn to PC and nothing else, and cannot fault. -/
def Obligations.JumpWritesOnlyPc : Prop :=
  ∀ (nnn : Addr) (s : State), decode (0x1#4 ++ nnn) = .ok (.jump nnn) ∧
    ∃ t, exec (.jump nnn) s = .next t ∧ t.pc = nnn ∧ Frame s t noReg [.pc] noByte

/-- Call on a stack with room pushes PC, which is A + 2, and goes to nnn; on a full bounded stack it faults.  Rests
on D1 and D10. -/
def Obligations.CallPushesTheReturnAddress : Prop :=
  ∀ (nnn : Addr) (s : State),
    (s.cfg.stackDepth ≠ some s.stack.length → ∃ t, exec (.call nnn) s = .next t ∧ t.pc = nnn ∧
      t.stack = s.pc :: s.stack ∧ Frame s t noReg [.pc, .stack] noByte) ∧
    (s.cfg.stackDepth = some s.stack.length → exec (.call nnn) s = .next (faulted s .stackOverflow))

/-- R123: Return (00EE) pops the top of the stack into PC; on an empty stack it faults. -/
def Obligations.ReturnPopsTheStackIntoPc : Prop :=
  ∀ s : State,
    decode 0x00EE#16 = .ok .ret ∧
    (∀ a rest, s.stack = a :: rest → ∃ t, exec .ret s = .next t ∧ t.pc = a ∧ t.stack = rest ∧
      Frame s t noReg [.pc, .stack] noByte) ∧
    (s.stack = [] → exec .ret s = .next (faulted s .stackUnderflow))

/-- A Return that meets the stack a Call left goes to the instruction after the Call (the PC the Call saw) and leaves
the stack the Call found (S7). -/
def Obligations.ReturnUndoesCall : Prop :=
  ∀ (nnn : Addr) (s t u : State), s.cfg.stackDepth ≠ some s.stack.length → exec (.call nnn) s = .next t →
    u.stack = t.stack → ∃ w, exec .ret u = .next w ∧ w.pc = s.pc ∧ w.stack = s.stack

/-- R124: JumpV0 (Bnnn) goes to nnn + V0, and faults when that is above 0xFFF. -/
def Obligations.JumpV0AddsV0WithoutWrapping : Prop :=
  ∀ (nnn : Addr) (s : State),
    decode (0xB#4 ++ nnn) = .ok (.jumpV0 nnn) ∧
    (nnn.toNat + (s.getV 0x0#4).toNat ≤ 0xFFF → ∃ t, exec (.jumpV0 nnn) s = .next t ∧
      t.pc.toNat = nnn.toNat + (s.getV 0x0#4).toNat ∧ Frame s t noReg [.pc] noByte) ∧
    (0xFFF < nnn.toNat + (s.getV 0x0#4).toNat →
      exec (.jumpV0 nnn) s = .next (faulted s (.addressOverflow (nnn.toNat + (s.getV 0x0#4).toNat : Nat))))

/-- EqNum, NeqNum, Eq and Neq skip on their conditions.  The conditions are the spec's general knowledge (G3). -/
def Obligations.ComparisonSkipsFollowTheirConditions : Prop :=
  ∀ (x y : RegIdx) (nn : Byte) (s : State),
    SkipsOn (.eqNum x nn) ((s.getV x).toNat = nn.toNat) s ∧
    SkipsOn (.neqNum x nn) ((s.getV x).toNat ≠ nn.toNat) s ∧
    SkipsOn (.eq x y) ((s.getV x).toNat = (s.getV y).toNat) s ∧
    SkipsOn (.neq x y) ((s.getV x).toNat ≠ (s.getV y).toNat) s

/-- KeyEq and KeyNeq skip on the flag of the key that Vx names.  The conditions are the spec's general knowledge
(G3). -/
def Obligations.KeySkipsFollowTheNamedKey : Prop :=
  ∀ (x : RegIdx) (s : State) (h : (s.getV x).toNat < 16),
    SkipsOn (.keyEq x) (s.keys[(s.getV x).toNat] = true) s ∧
    SkipsOn (.keyNeq x) (s.keys[(s.getV x).toNat] = false) s

/-- KeyEq and KeyNeq fault when Vx is above 0xF, before any fault of the skip.  Rests on D12 and D31. -/
def Obligations.KeySkipsFaultOnAnInvalidKey : Prop :=
  ∀ (x : RegIdx) (s : State), 0xF < (s.getV x).toNat →
    exec (.keyEq x) s = .next (faulted s (.invalidKey (s.getV x))) ∧
    exec (.keyNeq x) s = .next (faulted s (.invalidKey (s.getV x)))

/-! ## Display (42_display.md) -/

/-- After Clear every pixel is false, and nothing else has changed.  That Clear invokes the screen's clear() is the
spec's general knowledge (G7). -/
def Obligations.ClearResetsEveryPixel : Prop :=
  ∀ s : State, ∃ t, exec .clear s = .next t ∧ (∀ c r, c < 64 → r < 32 → pixel t.fb c r = false) ∧
    Frame s t noReg [.screen] noByte

/-- R140: the drawing loop XORs a sprite of at most 32 bytes (Draw's are at most 15) onto the screen, wrapping both
coordinates, and reports a collision iff some bit of 1 lands on a pixel that was set. -/
def Obligations.ScreenDrawXorsTheSpriteAndDetectsCollision : Prop :=
  ∀ (fb : Screen) (x0 y0 : Nat) (spr : List Byte), spr.length ≤ 32 →
    (∀ c r, c < 64 → r < 32 →
      pixel (screenDraw fb x0 y0 spr).fb c r = (pixel fb c r ^^ spriteBit x0 y0 spr c r)) ∧
    ((screenDraw fb x0 y0 spr).collision = true ↔
      ∃ c r, c < 64 ∧ r < 32 ∧ pixel fb c r = true ∧ spriteBit x0 y0 spr c r = true)

/-- Drawing the same sprite at the same place twice gives the screen back, and the second drawing collides iff some
bit of 1 lay on a pixel that was clear before the first. -/
def Obligations.DrawingTwiceRestoresTheScreen : Prop :=
  ∀ (fb : Screen) (x0 y0 : Nat) (spr : List Byte), spr.length ≤ 32 →
    (screenDraw (screenDraw fb x0 y0 spr).fb x0 y0 spr).fb = fb ∧
    ((screenDraw (screenDraw fb x0 y0 spr).fb x0 y0 spr).collision = true ↔
      ∃ c r, c < 64 ∧ r < 32 ∧ pixel fb c r = false ∧ spriteBit x0 y0 spr c r = true)

/-- Draw XORs the n bytes at I onto the screen at column Vx and row Vy (both read before VF is written) and writes
the collision flag to VF; n = 0 draws nothing and writes 0.  When the sprite runs past 0xFFF it faults and nothing
is drawn.  Rests on D23, D29 and D34. -/
def Obligations.DrawXorsTheBytesAtIAndWritesCollision : Prop :=
  ∀ (x y : RegIdx) (n : Nibble) (s : State),
    (InBounds s n.toNat → ∃ t, exec (.draw x y n) s = .next t ∧
      (∀ c r, c < 64 → r < 32 → pixel t.fb c r = (pixel s.fb c r ^^
        spriteBit (s.getV x).toNat (s.getV y).toNat (bytesAt s.mem s.i.toNat n.toNat) c r)) ∧
      (((t.getV vf).toNat = 1 ∧ ∃ c r, c < 64 ∧ r < 32 ∧ pixel s.fb c r = true ∧
          spriteBit (s.getV x).toNat (s.getV y).toNat (bytesAt s.mem s.i.toNat n.toNat) c r = true) ∨
        ((t.getV vf).toNat = 0 ∧ ∀ c r, c < 64 → r < 32 → pixel s.fb c r = true →
          spriteBit (s.getV x).toNat (s.getV y).toNat (bytesAt s.mem s.i.toNat n.toNat) c r = false)) ∧
      Frame s t (· = vf) [.screen] noByte) ∧
    (¬ InBounds s n.toNat → exec (.draw x y n) s = .next (faulted s (.memoryOutOfBounds s.i n.toNat)))

/-! ## Timers, keys and the host's events (43_timers_input.md, 60_exceptions.md) -/

/-- R150, R152, R153: GetDelay (Fx07) copies DT to Vx; SetDelay (Fx15) and SetSound (Fx18) copy Vx to DT and ST; the
tone is active after SetSound iff Vx is at least 1. -/
def Obligations.TimerInstructionsCopyTheTimers : Prop :=
  ∀ (x : RegIdx) (s : State),
    decode (0xF#4 ++ x ++ 0x07#8) = .ok (.getDelay x) ∧ decode (0xF#4 ++ x ++ 0x15#8) = .ok (.setDelay x) ∧
    decode (0xF#4 ++ x ++ 0x18#8) = .ok (.setSound x) ∧
    WritesReg (.getDelay x) s x s.dt.toNat ∧
    (∃ t, exec (.setDelay x) s = .next t ∧ t.dt = s.getV x ∧ Frame s t noReg [.dt] noByte) ∧
    (∃ t, exec (.setSound x) s = .next t ∧ t.st = s.getV x ∧
      (soundActive t = true ↔ 1 ≤ (s.getV x).toNat) ∧ Frame s t noReg [.st] noByte)

/-- WaitKey with a key pressed stores the number of a pressed key in Vx.  It is the key of the first entry of the
`WAITKEY_PICK` table for the set of pressed keys, wherever that entry stands, if that key is pressed; if it is not, or
the table has no entry for the set, it is the lowest pressed key.  Rests on D13; the table is the model's own
(assumption log 7). -/
def Obligations.WaitKeyStoresAPressedKey : Prop :=
  ∀ (x : RegIdx) (s : State), (∃ j, ∃ h : j < 16, s.keys[j] = true) →
    ∃ t k, ∃ h : k < 16, exec (.waitKey x) s = .next t ∧ (t.getV x).toNat = k ∧ s.keys[k] = true ∧
      (∀ p, PickEntry s p → s.key p = true → k = p.toNat) ∧
      ((∀ p, PickEntry s p → s.key p = false) → ∀ j (hj : j < 16), s.keys[j] = true → k ≤ j) ∧
      Frame s t (· = x) [] noByte

/-- WaitKey with no key pressed takes PC back to A and changes nothing else. -/
def Obligations.WaitKeyWithoutAKeyRewindsPc : Prop :=
  ∀ (x : RegIdx) (s : State), (∀ j (h : j < 16), s.keys[j] = false) → 2 ≤ s.pc.toNat →
    ∃ t, exec (.waitKey x) s = .next t ∧ t.pc.toNat + 2 = s.pc.toNat ∧ Frame s t noReg [.pc] noByte

/-- A running core at a WaitKey with no key pressed and no strobe in store steps to the very same state, and so however
often it steps (R205).  The strobes in store are the model's own (assumption log 8). -/
def Obligations.WaitingCoreStepsToItself : Prop :=
  ∀ (s : State) (x : RegIdx), s.status = .running → s.inputs = [] → (∀ j (h : j < 16), s.keys[j] = false) →
    s.pc.toNat ≤ 0xFFD →
    decode (s.mem.readByte s.pc.toNat ++ s.mem.readByte (s.pc.toNat + 1)) = .ok (.waitKey x) →
    step s = .next s

/-- R181: a timer tick on a running core takes 1 from each timer that is above 0, and changes nothing else. -/
def Obligations.TimerTickDecrementsBothTimersToZero : Prop :=
  ∀ s : State, s.status = .running →
    (timerTick s).dt.toNat = s.dt.toNat - 1 ∧ (timerTick s).st.toNat = s.st.toNat - 1 ∧
    timerTick s = { s with dt := (timerTick s).dt, st := (timerTick s).st }

/-- The host's key setter sets that key's flag and changes nothing else; a number above 15 changes nothing.  Rests
on D30. -/
def Obligations.SetKeyPressedSetsOneFlag : Prop :=
  ∀ (k : Nat) (b : Bool) (s : State), s.status = .running →
    (∀ j (h : j < 16), (setKeyPressed k b s).keys[j] = if j = k then b else s.keys[j]) ∧
    setKeyPressed k b s = { s with keys := (setKeyPressed k b s).keys } ∧
    (15 < k → setKeyPressed k b s = s)

/-- The outputs: bit r × 64 + c of `pixels` and pixel (c, r) of the snapshot are the pixel at column c and row r; the
tone is active iff ST is above 0; the status code is 0 on a running core and on a Faulted one the code that the table of
R170 gives the recorded fault.  Rests on D16 and D36. -/
def Obligations.OutputsShowTheState : Prop :=
  ∀ s : State,
    (∀ c r, c < 64 → r < 32 → (pixelsOut s)[r * 64 + c]? = some (pixel s.fb c r) ∧
      getPixels s c r = pixel s.fb c r) ∧
    (soundActive s = true ↔ 0 < s.st.toNat) ∧
    (s.status = .running → statusCode s = 0) ∧
    (∀ w a, s.status = .faulted (.illegalInstruction w) a → statusCode s = 1) ∧
    (∀ b n a, s.status = .faulted (.memoryOutOfBounds b n) a → statusCode s = 2) ∧
    (∀ z a, s.status = .faulted (.addressOverflow z) a → statusCode s = 3) ∧
    (∀ a, s.status = .faulted .stackUnderflow a → statusCode s = 4) ∧
    (∀ a, s.status = .faulted .stackOverflow a → statusCode s = 5) ∧
    (∀ k a, s.status = .faulted (.invalidKey k) a → statusCode s = 6) ∧
    (∀ n, (FaultInfo.loadOverflow n).code = 7)

/-! ## Index register and memory (44_index_memory.md) -/

/-- SetIdx writes nnn to I; SetSprite writes 0x050 + 5 × Vx, Vx not masked, and never faults.  Rests on D6 and D24. -/
def Obligations.SetIdxAndSetSpriteWriteOnlyI : Prop :=
  ∀ (x : RegIdx) (nnn : Addr) (s : State),
    (∃ t, exec (.setIdx nnn) s = .next t ∧ t.i = nnn ∧ Frame s t noReg [.i] noByte) ∧
    (∃ t, exec (.setSprite x) s = .next t ∧ t.i.toNat = 0x050 + (s.getV x).toNat * 5 ∧
      Frame s t noReg [.i] noByte)

/-- AddIdx adds Vx to I, VF not written; a sum above 0xFFF faults.  Rests on D5. -/
def Obligations.AddIdxAddsWithoutWrapping : Prop :=
  ∀ (x : RegIdx) (s : State),
    (s.i.toNat + (s.getV x).toNat ≤ 0xFFF → ∃ t, exec (.addIdx x) s = .next t ∧
      t.i.toNat = s.i.toNat + (s.getV x).toNat ∧ Frame s t noReg [.i] noByte) ∧
    (0xFFF < s.i.toNat + (s.getV x).toNat →
      exec (.addIdx x) s = .next (faulted s (.addressOverflow (s.i.toNat + (s.getV x).toNat : Nat))))

/-- R163: StoreBcd (Fx33) writes the hundreds, tens and units digits of Vx at I, I + 1 and I + 2 and nothing else;
past 0xFFF it faults and writes nothing. -/
def Obligations.StoreBcdWritesTheThreeDecimalDigits : Prop :=
  ∀ (x : RegIdx) (s : State),
    decode (0xF#4 ++ x ++ 0x33#8) = .ok (.storeBcd x) ∧
    (InBounds s 3 → ∃ t, exec (.storeBcd x) s = .next t ∧
      (t.mem.readByte s.i.toNat).toNat * 100 + (t.mem.readByte (s.i.toNat + 1)).toNat * 10 +
        (t.mem.readByte (s.i.toNat + 2)).toNat = (s.getV x).toNat ∧
      (∀ k, k < 3 → (t.mem.readByte (s.i.toNat + k)).toNat ≤ 9) ∧
      Frame s t noReg [] (fun a => s.i.toNat ≤ a ∧ a < s.i.toNat + 3)) ∧
    (¬ InBounds s 3 → exec (.storeBcd x) s = .next (faulted s (.memoryOutOfBounds s.i 3)))

/-- Store writes V0..Vx at I, I + 1, … and nothing else, I not changed; past 0xFFF it faults and writes nothing.
Rests on D22 and D18. -/
def Obligations.StoreWritesRegistersUpToVx : Prop :=
  ∀ (x : RegIdx) (s : State),
    (InBounds s (x.toNat + 1) → ∃ t, exec (.store x) s = .next t ∧
      (∀ k : RegIdx, k.toNat ≤ x.toNat → t.mem.readByte (s.i.toNat + k.toNat) = s.getV k) ∧
      Frame s t noReg [] (fun a => s.i.toNat ≤ a ∧ a < s.i.toNat + (x.toNat + 1))) ∧
    (¬ InBounds s (x.toNat + 1) → exec (.store x) s = .next (faulted s (.memoryOutOfBounds s.i (x.toNat + 1))))

/-- Load reads V0..Vx from I, I + 1, … and changes nothing else, I not changed; past 0xFFF it faults and writes no
register.  Rests on D22 and D18. -/
def Obligations.LoadReadsRegistersUpToVx : Prop :=
  ∀ (x : RegIdx) (s : State),
    (InBounds s (x.toNat + 1) → ∃ t, exec (.load x) s = .next t ∧
      (∀ k : RegIdx, k.toNat ≤ x.toNat → t.getV k = s.mem.readByte (s.i.toNat + k.toNat)) ∧
      Frame s t (fun r => r.toNat ≤ x.toNat) [] noByte) ∧
    (¬ InBounds s (x.toNat + 1) → exec (.load x) s = .next (faulted s (.memoryOutOfBounds s.i (x.toNat + 1))))

/-- A Store is seen by the next fetch: two registers stored at I are the word fetched from there, V0 the high byte.
Rests on D25. -/
def Obligations.StoredBytesAreFetchedNext : Prop :=
  ∀ (x : RegIdx) (s t : State), 1 ≤ x.toNat → s.i.toNat + x.toNat ≤ 0xFFF → s.i.toNat ≤ 0xFFD →
    exec (.store x) s = .next t → fetch (t.setPc s.i) = .ok (s.getV 0x0#4 ++ s.getV 0x1#4, s.i + 2#12)

/-! ## Reset and the end of a run (70_reset_and_hazards.md, 60_exceptions.md) -/

/-- Construction, for every choice of the parameters and every ROM: one of at most 3584 bytes gives a core with the
ROM at 0x200, the font at 0x050, `RESET_MEM` elsewhere, PC = 0x200, an empty stack, a clear screen, status Running
and the parameters' values in the rest; a longer ROM gives `LoadOverflow`.  Rests on D8, D9 and D26. -/
def Obligations.ConstructLoadsFontAndRomOrRejects : Prop :=
  ∀ (c : Config) (p : ResetParams) (rom : List Byte),
    (rom.length ≤ 3584 → ∃ s, construct c p rom = .ok s ∧
      (∀ k (h : k < rom.length), s.mem.readByte (0x200 + k) = rom[k]) ∧
      (∀ k (h : k < 80), s.mem.readByte (0x050 + k) = p.font[k]) ∧
      (∀ a, a < 0x1000 → a < 0x050 ∨ 0x0A0 ≤ a → a < 0x200 ∨ 0x200 + rom.length ≤ a →
        s.mem.readByte a = resetByte p.mem a) ∧
      s.mem.wf ∧ s.pc = 0x200#12 ∧ s.stack = [] ∧ (∀ c' r, pixel s.fb c' r = false) ∧ s.status = .running ∧
      s.v = p.v ∧ s.i = p.i ∧ s.dt = p.dt ∧ s.st = p.st ∧ s.keys = p.keys ∧ s.cfg = c) ∧
    (3584 < rom.length → construct c p rom = .error (.loadOverflow rom.length))

/-- Reset is construction with the defaults and an empty ROM: PC = 0x200, V, I, DT, ST zero, no key pressed, empty
stack, a clear screen, the 80 bytes of the standard font at 0x050 and 0x00 everywhere else; the stack unbounded, the
flag last for Add, Sub and Subb and the result last for Shr and Shl, and no exception to the lowest pressed key.  All
but PC, screen and status are the spec's defaults of R7 (D4, D7, D8, D9, D10, D13; assumption log 2 to 7). -/
def Obligations.ResetIsDefaultConstruction : Prop :=
  construct configDefault resetDefault [] = .ok State.reset ∧
  State.reset.pc = 0x200#12 ∧ (∀ r, State.reset.getV r = 0x00#8) ∧ State.reset.i = 0x000#12 ∧
  State.reset.dt = 0x00#8 ∧ State.reset.st = 0x00#8 ∧ State.reset.stack = [] ∧
  (∀ k, State.reset.key k = false) ∧ State.reset.status = .running ∧
  (∀ c r, pixel State.reset.fb c r = false) ∧
  (List.range 16).map (fun g => bytesAt State.reset.mem (0x050 + 5 * g) 5) = standardGlyphs ∧
  (∀ a, a < 0x1000 → a < 0x050 ∨ 0x0A0 ≤ a → State.reset.mem.readByte a = 0x00#8) ∧
  State.reset.cfg.stackDepth = none ∧
  State.reset.cfg.vfDestOrder =
    { add := .flagLast, sub := .flagLast, subb := .flagLast, shr := .resultLast, shl := .resultLast } ∧
  State.reset.cfg.waitKeyPick = []

/-- An idle core with no strobe in store steps to the very same state (R191; rests on D19). -/
def Obligations.IdleCoreStepsToItself : Prop :=
  ∀ (s : State) (p : Addr), s.IdleAt p → s.inputs = [] → step s = .next s

/-- An idle core with no strobe in store runs safely for any number of steps. -/
def Obligations.IdleCoreIsSafeForAnyNumberOfSteps : Prop :=
  ∀ (n : Nat) (s : State) (p : Addr), s.IdleAt p → s.inputs = [] → SafeFor n s
end

