-- ==== Sys2Proof/Laws/Decode.lean ====
section
/-! SUPPORT. The fields of the words that `encode` writes, and that every instruction is well formed. -/

namespace Sys2Proof

/-- Concatenation as arithmetic. -/
theorem toNat_append {n m : Nat} (x : BitVec n) (y : BitVec m) : (x ++ y).toNat = x.toNat * 2 ^ m + y.toNat := by
  rw [BitVec.toNat_append, ← Nat.shiftLeft_add_eq_or_of_lt y.isLt, Nat.shiftLeft_eq]

/-- A field as arithmetic. -/
theorem toNat_field (w : InstrWord) (k n : Nat) : (w.extractLsb' k n).toNat = w.toNat / 2 ^ k % 2 ^ n := by
  simp [BitVec.extractLsb'_toNat, Nat.shiftRight_eq_div_pow]

/-- Format A as a number. -/
theorem toNat_wordA (op : Nibble) (nnn : Addr) : (op ++ nnn : InstrWord).toNat = op.toNat * 4096 + nnn.toNat :=
  toNat_append op nnn

/-- Format XI as a number. -/
theorem toNat_wordXI (op : Nibble) (x : RegIdx) (nn : Byte) :
    (op ++ x ++ nn : InstrWord).toNat = op.toNat * 4096 + x.toNat * 256 + nn.toNat := by
  have h : (op ++ x ++ nn : BitVec (4 + 4 + 8)).toNat = op.toNat * 4096 + x.toNat * 256 + nn.toNat := by
    simp only [toNat_append]; omega
  exact h

/-- Formats XY, XYN and XF as a number. -/
theorem toNat_wordXY (op : Nibble) (x y : RegIdx) (n : Nibble) :
    (op ++ x ++ y ++ n : InstrWord).toNat = op.toNat * 4096 + x.toNat * 256 + y.toNat * 16 + n.toNat := by
  have h : (op ++ x ++ y ++ n : BitVec (4 + 4 + 4 + 4)).toNat =
      op.toNat * 4096 + x.toNat * 256 + y.toNat * 16 + n.toNat := by
    simp only [toNat_append]; omega
  exact h

theorem toNat_fieldOp (w : InstrWord) : (fieldOp w).toNat = w.toNat / 4096 := by
  have := w.isLt; rw [fieldOp, toNat_field]; omega
theorem toNat_fieldX (w : InstrWord) : (fieldX w).toNat = w.toNat / 256 % 16 := by
  rw [fieldX, toNat_field]; rfl
theorem toNat_fieldY (w : InstrWord) : (fieldY w).toNat = w.toNat / 16 % 16 := by
  rw [fieldY, toNat_field]; rfl
theorem toNat_fieldN (w : InstrWord) : (fieldN w).toNat = w.toNat % 16 := by rw [fieldN, toNat_field]; omega
theorem toNat_fieldNN (w : InstrWord) : (fieldNN w).toNat = w.toNat % 256 := by rw [fieldNN, toNat_field]; omega
theorem toNat_fieldNNN (w : InstrWord) : (fieldNNN w).toNat = w.toNat % 4096 := by
  rw [fieldNNN, toNat_field]; omega

section fields
variable (op x y n : Nibble) (nn : Byte) (nnn : Addr)

@[simp] theorem fieldOp_wordA : fieldOp (op ++ nnn) = op := by
  have := op.isLt; have := nnn.isLt
  apply BitVec.eq_of_toNat_eq; rw [toNat_fieldOp, toNat_wordA]; omega
@[simp] theorem fieldNNN_wordA : fieldNNN (op ++ nnn) = nnn := by
  have := op.isLt; have := nnn.isLt
  apply BitVec.eq_of_toNat_eq; rw [toNat_fieldNNN, toNat_wordA]; omega
@[simp] theorem fieldOp_wordXI : fieldOp (op ++ x ++ nn) = op := by
  have := x.isLt; have := nn.isLt
  apply BitVec.eq_of_toNat_eq; rw [toNat_fieldOp, toNat_wordXI]; omega
@[simp] theorem fieldX_wordXI : fieldX (op ++ x ++ nn) = x := by
  have := x.isLt; have := nn.isLt
  apply BitVec.eq_of_toNat_eq; rw [toNat_fieldX, toNat_wordXI]; omega
@[simp] theorem fieldNN_wordXI : fieldNN (op ++ x ++ nn) = nn := by
  have := x.isLt; have := nn.isLt
  apply BitVec.eq_of_toNat_eq; rw [toNat_fieldNN, toNat_wordXI]; omega
@[simp] theorem fieldOp_wordXY : fieldOp (op ++ x ++ y ++ n) = op := by
  have := x.isLt; have := y.isLt; have := n.isLt
  apply BitVec.eq_of_toNat_eq; rw [toNat_fieldOp, toNat_wordXY]; omega
@[simp] theorem fieldX_wordXY : fieldX (op ++ x ++ y ++ n) = x := by
  have := x.isLt; have := y.isLt; have := n.isLt
  apply BitVec.eq_of_toNat_eq; rw [toNat_fieldX, toNat_wordXY]; omega
@[simp] theorem fieldY_wordXY : fieldY (op ++ x ++ y ++ n) = y := by
  have := x.isLt; have := y.isLt; have := n.isLt
  apply BitVec.eq_of_toNat_eq; rw [toNat_fieldY, toNat_wordXY]; omega
@[simp] theorem fieldN_wordXY : fieldN (op ++ x ++ y ++ n) = n := by
  have := x.isLt; have := y.isLt; have := n.isLt
  apply BitVec.eq_of_toNat_eq; rw [toNat_fieldN, toNat_wordXY]; omega

end fields

/-- The two bytes of a word put together again are the word. -/
theorem wordOf_bytes (w : InstrWord) : wordOf (wordHi w) (wordLo w) = w := by
  have := w.isLt
  apply BitVec.eq_of_toNat_eq
  have h : (wordOf (wordHi w) (wordLo w)).toNat = (wordHi w).toNat * 2 ^ 8 + (wordLo w).toNat :=
    toNat_append (wordHi w) (wordLo w)
  rw [h, wordHi, wordLo, toNat_field, toNat_field]; omega

/-- Every term of `Instr` is well formed: no field is reserved (spec 30_encoding.md R78). -/
theorem Instr.wellFormed_all (i : Instr) : i.wellFormed = true := by
  have h12 : ∀ a : Addr, isAddr a.toNat = true := fun a => decide_eq_true (Nat.le_of_lt_succ a.isLt)
  have h4 : ∀ x : RegIdx, isRegIdx x.toNat = true := fun x => decide_eq_true (Nat.le_of_lt_succ x.isLt)
  have h8 : ∀ b : Byte, isByte b.toNat = true := fun b => decide_eq_true (Nat.le_of_lt_succ b.isLt)
  have hn : ∀ n : Nibble, isHeight n.toNat = true := fun n => decide_eq_true (Nat.le_of_lt_succ n.isLt)
  cases i <;> simp [Instr.wellFormed, h12, h4, h8, hn]

end Sys2Proof
end

