-- ==== Sys2Proof/Laws/Memory.lean ====
section
/-! SUPPORT. The laws of memory: what reads give after writes, and that every write keeps the canonical form. -/

namespace Sys2Proof.Machine

@[simp] theorem Memory.readByte_nil (a : Nat) : Memory.readByte [] a = Memory.background a := rfl

theorem Memory.readByte_insertCell (m : Memory) (a a' : Nat) (b : Byte) :
    (m.insertCell a b).readByte a' = if a' = a then b else m.readByte a' := by
  induction m with
  | nil => simp [Memory.insertCell, Memory.readByte]
  | cons c m ih =>
    obtain ⟨a₁, b₁⟩ := c
    simp only [Memory.insertCell]
    split
    · simp [Memory.readByte]
    · split
      · subst a₁; simp only [Memory.readByte]; split <;> rfl
      · simp only [Memory.readByte, ih]
        split <;> split <;> simp_all

theorem Memory.readByte_eraseCell (m : Memory) (a a' : Nat) :
    (m.eraseCell a).readByte a' = if a' = a then Memory.background a else m.readByte a' := by
  induction m with
  | nil => simp only [Memory.eraseCell, Memory.readByte]; split <;> simp_all
  | cons c m ih =>
    obtain ⟨a₁, b₁⟩ := c
    simp only [Memory.eraseCell]
    split
    · subst a₁
      rw [ih]; simp only [Memory.readByte]
      split <;> rfl
    · simp only [Memory.readByte, ih]
      split <;> split <;> simp_all

/-- A byte just written reads as what was written; every other address reads as before. -/
theorem Memory.readByte_writeByte (m : Memory) (a a' : Nat) (b : Byte) :
    (m.writeByte a b).readByte a' = if a' = a then b else m.readByte a' := by
  unfold Memory.writeByte
  split
  · rename_i h; rw [Memory.readByte_eraseCell, h]
  · exact Memory.readByte_insertCell ..

theorem Memory.mem_insertCell {m : Memory} {a : Nat} {b : Byte} {c : Host.Cell} (h : c ∈ m.insertCell a b) :
    c = (a, b) ∨ c ∈ m := by
  induction m with
  | nil => simpa [Memory.insertCell] using h
  | cons c' m ih =>
    obtain ⟨a₁, b₁⟩ := c'
    simp only [Memory.insertCell] at h
    split at h
    · simpa using h
    · split at h
      · rcases List.mem_cons.1 h with h | h
        · exact .inl h
        · exact .inr (by simp [h])
      · rcases List.mem_cons.1 h with h | h
        · exact .inr (by simp [h])
        · exact (ih h).imp_right (by simp +contextual)

theorem Memory.mem_eraseCell {m : Memory} {a : Nat} {c : Host.Cell} (h : c ∈ m.eraseCell a) : c ∈ m := by
  induction m with
  | nil => simp [Memory.eraseCell] at h
  | cons c' m ih =>
    obtain ⟨a₁, b₁⟩ := c'
    simp only [Memory.eraseCell] at h
    split at h
    · simp [ih h]
    · rcases List.mem_cons.1 h with h | h
      · simp [h]
      · simp [ih h]

theorem Memory.pairwise_insertCell {m : Memory} (hm : m.Pairwise fun c d => c.1 < d.1) (a : Nat) (b : Byte) :
    (m.insertCell a b).Pairwise fun c d => c.1 < d.1 := by
  induction m with
  | nil => simp [Memory.insertCell]
  | cons c m ih =>
    obtain ⟨a₁, b₁⟩ := c
    obtain ⟨h1, h2⟩ := List.pairwise_cons.1 hm
    simp only [Memory.insertCell]
    split
    · rename_i hlt
      refine List.pairwise_cons.2 ⟨fun d hd => ?_, hm⟩
      rcases List.mem_cons.1 hd with rfl | hd
      · exact hlt
      · exact Nat.lt_trans hlt (h1 d hd)
    · split
      · subst a₁; exact List.pairwise_cons.2 ⟨h1, h2⟩
      · refine List.pairwise_cons.2 ⟨fun d hd => ?_, ih h2⟩
        rcases Memory.mem_insertCell hd with rfl | hd
        · simp; omega
        · exact h1 d hd

theorem Memory.pairwise_eraseCell {m : Memory} (hm : m.Pairwise fun c d => c.1 < d.1) (a : Nat) :
    (m.eraseCell a).Pairwise fun c d => c.1 < d.1 := by
  induction m with
  | nil => simp [Memory.eraseCell]
  | cons c m ih =>
    obtain ⟨a₁, b₁⟩ := c
    obtain ⟨h1, h2⟩ := List.pairwise_cons.1 hm
    simp only [Memory.eraseCell]
    split
    · exact ih h2
    · exact List.pairwise_cons.2 ⟨fun d hd => h1 d (Memory.mem_eraseCell hd), ih h2⟩

theorem Memory.wf_nil : Memory.wf [] := by decide

/-- Writing one byte inside 0x000–0xFFF keeps the canonical form. -/
theorem Memory.wf_writeByte {m : Memory} (hm : m.wf) {a : Nat} (ha : a ≤ topAddr) (b : Byte) :
    (m.writeByte a b).wf := by
  unfold Memory.writeByte
  split
  · exact ⟨Memory.pairwise_eraseCell hm.1 a, fun c hc => hm.2 c (Memory.mem_eraseCell hc)⟩
  · rename_i hb
    refine ⟨Memory.pairwise_insertCell hm.1 a b, fun c hc => ?_⟩
    rcases Memory.mem_insertCell hc with rfl | hc
    · exact ⟨ha, hb⟩
    · exact hm.2 c hc

/-- Writing bytes inside 0x000–0xFFF keeps the canonical form. -/
theorem Memory.wf_writeBytes {m : Memory} (hm : m.wf) {a : Nat} {bs : List Byte}
    (h : bs.length = 0 ∨ a + bs.length - 1 ≤ topAddr) : (m.writeBytes a bs).wf := by
  induction bs generalizing m a with
  | nil => exact hm
  | cons b bs ih =>
    simp only [List.length_cons] at h
    exact ih (Memory.wf_writeByte hm (by omega) b) (by omega)

/-- Bytes just written read in their order; every other address reads as before. -/
theorem Memory.readByte_writeBytes (m : Memory) (a a' : Nat) (bs : List Byte) :
    (m.writeBytes a bs).readByte a' = if a ≤ a' then bs.getD (a' - a) (m.readByte a') else m.readByte a' := by
  induction bs generalizing m a with
  | nil => simp [Memory.writeBytes]
  | cons b bs ih =>
    rw [Memory.writeBytes, ih, Memory.readByte_writeByte]
    by_cases h : a' = a
    · subst h; simp
    · by_cases h' : a ≤ a'
      · have : a' - a = (a' - (a + 1)) + 1 := by omega
        rw [if_pos (by omega), if_pos h', if_neg h, this]; simp
      · rw [if_neg (by omega), if_neg h', if_neg h]

theorem Memory.readByte_writeBytes_inside (m : Memory) (a k : Nat)
    {bs : List Byte} (h : k < bs.length) : (m.writeBytes a bs).readByte (a + k) = bs[k] := by
  simp [Memory.readByte_writeBytes, h]

theorem Memory.readByte_writeBytes_outside (m : Memory) {a a' : Nat}
    {bs : List Byte} (h : a' < a ∨ a + bs.length ≤ a') : (m.writeBytes a bs).readByte a' = m.readByte a' := by
  rw [Memory.readByte_writeBytes]
  split
  · rw [List.getD_eq_default]; omega
  · rfl

end Sys2Proof.Machine
end

