-- ==== Sys2Proof/Laws/State.lean ====
section
/-! SUPPORT. One lemma for each field of the state under each update, and the read of a register after each. -/

namespace Sys2Proof.Machine

variable (s : State)

/-! ## `V[x] <- b` -/

@[simp] theorem State.setV_v (x : RegIdx) (b : Byte) : (s.setV x b).v = s.v.set x.toNat b x.isLt := rfl
@[simp] theorem State.setV_pc (x : RegIdx) (b : Byte) : (s.setV x b).pc = s.pc := rfl
@[simp] theorem State.setV_i (x : RegIdx) (b : Byte) : (s.setV x b).i = s.i := rfl
@[simp] theorem State.setV_stack (x : RegIdx) (b : Byte) : (s.setV x b).stack = s.stack := rfl
@[simp] theorem State.setV_dt (x : RegIdx) (b : Byte) : (s.setV x b).dt = s.dt := rfl
@[simp] theorem State.setV_st (x : RegIdx) (b : Byte) : (s.setV x b).st = s.st := rfl
@[simp] theorem State.setV_mem (x : RegIdx) (b : Byte) : (s.setV x b).mem = s.mem := rfl
@[simp] theorem State.setV_fb (x : RegIdx) (b : Byte) : (s.setV x b).fb = s.fb := rfl
@[simp] theorem State.setV_keys (x : RegIdx) (b : Byte) : (s.setV x b).keys = s.keys := rfl
@[simp] theorem State.setV_status (x : RegIdx) (b : Byte) : (s.setV x b).status = s.status := rfl
@[simp] theorem State.setV_cfg (x : RegIdx) (b : Byte) : (s.setV x b).cfg = s.cfg := rfl
@[simp] theorem State.setV_inputs (x : RegIdx) (b : Byte) : (s.setV x b).inputs = s.inputs := rfl
@[simp] theorem State.setV_rndIn (x : RegIdx) (b : Byte) : (s.setV x b).rndIn = s.rndIn := rfl
@[simp] theorem State.setV_rndDraws (x : RegIdx) (b : Byte) : (s.setV x b).rndDraws = s.rndDraws := rfl

/-! ## `PC <- a` -/

@[simp] theorem State.setPc_v (a : Addr) : (s.setPc a).v = s.v := rfl
@[simp] theorem State.setPc_pc (a : Addr) : (s.setPc a).pc = a := rfl
@[simp] theorem State.setPc_i (a : Addr) : (s.setPc a).i = s.i := rfl
@[simp] theorem State.setPc_stack (a : Addr) : (s.setPc a).stack = s.stack := rfl
@[simp] theorem State.setPc_dt (a : Addr) : (s.setPc a).dt = s.dt := rfl
@[simp] theorem State.setPc_st (a : Addr) : (s.setPc a).st = s.st := rfl
@[simp] theorem State.setPc_mem (a : Addr) : (s.setPc a).mem = s.mem := rfl
@[simp] theorem State.setPc_fb (a : Addr) : (s.setPc a).fb = s.fb := rfl
@[simp] theorem State.setPc_keys (a : Addr) : (s.setPc a).keys = s.keys := rfl
@[simp] theorem State.setPc_status (a : Addr) : (s.setPc a).status = s.status := rfl
@[simp] theorem State.setPc_cfg (a : Addr) : (s.setPc a).cfg = s.cfg := rfl
@[simp] theorem State.setPc_inputs (a : Addr) : (s.setPc a).inputs = s.inputs := rfl
@[simp] theorem State.setPc_rndIn (a : Addr) : (s.setPc a).rndIn = s.rndIn := rfl
@[simp] theorem State.setPc_rndDraws (a : Addr) : (s.setPc a).rndDraws = s.rndDraws := rfl

/-! ## `I <- a` -/

@[simp] theorem State.setI_v (a : Addr) : (s.setI a).v = s.v := rfl
@[simp] theorem State.setI_pc (a : Addr) : (s.setI a).pc = s.pc := rfl
@[simp] theorem State.setI_i (a : Addr) : (s.setI a).i = a := rfl
@[simp] theorem State.setI_stack (a : Addr) : (s.setI a).stack = s.stack := rfl
@[simp] theorem State.setI_dt (a : Addr) : (s.setI a).dt = s.dt := rfl
@[simp] theorem State.setI_st (a : Addr) : (s.setI a).st = s.st := rfl
@[simp] theorem State.setI_mem (a : Addr) : (s.setI a).mem = s.mem := rfl
@[simp] theorem State.setI_fb (a : Addr) : (s.setI a).fb = s.fb := rfl
@[simp] theorem State.setI_keys (a : Addr) : (s.setI a).keys = s.keys := rfl
@[simp] theorem State.setI_status (a : Addr) : (s.setI a).status = s.status := rfl
@[simp] theorem State.setI_cfg (a : Addr) : (s.setI a).cfg = s.cfg := rfl
@[simp] theorem State.setI_inputs (a : Addr) : (s.setI a).inputs = s.inputs := rfl
@[simp] theorem State.setI_rndIn (a : Addr) : (s.setI a).rndIn = s.rndIn := rfl
@[simp] theorem State.setI_rndDraws (a : Addr) : (s.setI a).rndDraws = s.rndDraws := rfl

/-! ## `M <- m` -/

@[simp] theorem State.setMem_v (m : Memory) : (s.setMem m).v = s.v := rfl
@[simp] theorem State.setMem_pc (m : Memory) : (s.setMem m).pc = s.pc := rfl
@[simp] theorem State.setMem_i (m : Memory) : (s.setMem m).i = s.i := rfl
@[simp] theorem State.setMem_stack (m : Memory) : (s.setMem m).stack = s.stack := rfl
@[simp] theorem State.setMem_dt (m : Memory) : (s.setMem m).dt = s.dt := rfl
@[simp] theorem State.setMem_st (m : Memory) : (s.setMem m).st = s.st := rfl
@[simp] theorem State.setMem_mem (m : Memory) : (s.setMem m).mem = m := rfl
@[simp] theorem State.setMem_fb (m : Memory) : (s.setMem m).fb = s.fb := rfl
@[simp] theorem State.setMem_keys (m : Memory) : (s.setMem m).keys = s.keys := rfl
@[simp] theorem State.setMem_status (m : Memory) : (s.setMem m).status = s.status := rfl
@[simp] theorem State.setMem_cfg (m : Memory) : (s.setMem m).cfg = s.cfg := rfl
@[simp] theorem State.setMem_inputs (m : Memory) : (s.setMem m).inputs = s.inputs := rfl
@[simp] theorem State.setMem_rndIn (m : Memory) : (s.setMem m).rndIn = s.rndIn := rfl
@[simp] theorem State.setMem_rndDraws (m : Memory) : (s.setMem m).rndDraws = s.rndDraws := rfl

/-! ## `FB <- fb` -/

@[simp] theorem State.setFb_v (fb : Screen) : (s.setFb fb).v = s.v := rfl
@[simp] theorem State.setFb_pc (fb : Screen) : (s.setFb fb).pc = s.pc := rfl
@[simp] theorem State.setFb_i (fb : Screen) : (s.setFb fb).i = s.i := rfl
@[simp] theorem State.setFb_stack (fb : Screen) : (s.setFb fb).stack = s.stack := rfl
@[simp] theorem State.setFb_dt (fb : Screen) : (s.setFb fb).dt = s.dt := rfl
@[simp] theorem State.setFb_st (fb : Screen) : (s.setFb fb).st = s.st := rfl
@[simp] theorem State.setFb_mem (fb : Screen) : (s.setFb fb).mem = s.mem := rfl
@[simp] theorem State.setFb_fb (fb : Screen) : (s.setFb fb).fb = fb := rfl
@[simp] theorem State.setFb_keys (fb : Screen) : (s.setFb fb).keys = s.keys := rfl
@[simp] theorem State.setFb_status (fb : Screen) : (s.setFb fb).status = s.status := rfl
@[simp] theorem State.setFb_cfg (fb : Screen) : (s.setFb fb).cfg = s.cfg := rfl
@[simp] theorem State.setFb_inputs (fb : Screen) : (s.setFb fb).inputs = s.inputs := rfl
@[simp] theorem State.setFb_rndIn (fb : Screen) : (s.setFb fb).rndIn = s.rndIn := rfl
@[simp] theorem State.setFb_rndDraws (fb : Screen) : (s.setFb fb).rndDraws = s.rndDraws := rfl

/-! ## `push(S, a)` -/

@[simp] theorem State.push_v (a : Addr) : (s.push a).v = s.v := rfl
@[simp] theorem State.push_pc (a : Addr) : (s.push a).pc = s.pc := rfl
@[simp] theorem State.push_i (a : Addr) : (s.push a).i = s.i := rfl
@[simp] theorem State.push_stack (a : Addr) : (s.push a).stack = a :: s.stack := rfl
@[simp] theorem State.push_dt (a : Addr) : (s.push a).dt = s.dt := rfl
@[simp] theorem State.push_st (a : Addr) : (s.push a).st = s.st := rfl
@[simp] theorem State.push_mem (a : Addr) : (s.push a).mem = s.mem := rfl
@[simp] theorem State.push_fb (a : Addr) : (s.push a).fb = s.fb := rfl
@[simp] theorem State.push_keys (a : Addr) : (s.push a).keys = s.keys := rfl
@[simp] theorem State.push_status (a : Addr) : (s.push a).status = s.status := rfl
@[simp] theorem State.push_cfg (a : Addr) : (s.push a).cfg = s.cfg := rfl
@[simp] theorem State.push_inputs (a : Addr) : (s.push a).inputs = s.inputs := rfl
@[simp] theorem State.push_rndIn (a : Addr) : (s.push a).rndIn = s.rndIn := rfl
@[simp] theorem State.push_rndDraws (a : Addr) : (s.push a).rndDraws = s.rndDraws := rfl

/-! ## taking a fault -/

@[simp] theorem State.faultAt_v (a : Addr) (e : FaultInfo) : (s.faultAt a e).v = s.v := rfl
@[simp] theorem State.faultAt_pc (a : Addr) (e : FaultInfo) : (s.faultAt a e).pc = a := rfl
@[simp] theorem State.faultAt_i (a : Addr) (e : FaultInfo) : (s.faultAt a e).i = s.i := rfl
@[simp] theorem State.faultAt_stack (a : Addr) (e : FaultInfo) : (s.faultAt a e).stack = s.stack := rfl
@[simp] theorem State.faultAt_dt (a : Addr) (e : FaultInfo) : (s.faultAt a e).dt = s.dt := rfl
@[simp] theorem State.faultAt_st (a : Addr) (e : FaultInfo) : (s.faultAt a e).st = s.st := rfl
@[simp] theorem State.faultAt_mem (a : Addr) (e : FaultInfo) : (s.faultAt a e).mem = s.mem := rfl
@[simp] theorem State.faultAt_fb (a : Addr) (e : FaultInfo) : (s.faultAt a e).fb = s.fb := rfl
@[simp] theorem State.faultAt_keys (a : Addr) (e : FaultInfo) : (s.faultAt a e).keys = s.keys := rfl
@[simp] theorem State.faultAt_status (a : Addr) (e : FaultInfo) : (s.faultAt a e).status = .faulted e a := rfl
@[simp] theorem State.faultAt_cfg (a : Addr) (e : FaultInfo) : (s.faultAt a e).cfg = s.cfg := rfl
@[simp] theorem State.faultAt_inputs (a : Addr) (e : FaultInfo) : (s.faultAt a e).inputs = s.inputs := rfl
@[simp] theorem State.faultAt_rndIn (a : Addr) (e : FaultInfo) : (s.faultAt a e).rndIn = s.rndIn := rfl
@[simp] theorem State.faultAt_rndDraws (a : Addr) (e : FaultInfo) : (s.faultAt a e).rndDraws = s.rndDraws := rfl

/-! ## raising a fault -/

@[simp] theorem State.raise_v (e : FaultInfo) : (s.raise e).v = s.v := rfl
@[simp] theorem State.raise_pc (e : FaultInfo) : (s.raise e).pc = s.pc - 2#12 := rfl
@[simp] theorem State.raise_i (e : FaultInfo) : (s.raise e).i = s.i := rfl
@[simp] theorem State.raise_stack (e : FaultInfo) : (s.raise e).stack = s.stack := rfl
@[simp] theorem State.raise_dt (e : FaultInfo) : (s.raise e).dt = s.dt := rfl
@[simp] theorem State.raise_st (e : FaultInfo) : (s.raise e).st = s.st := rfl
@[simp] theorem State.raise_mem (e : FaultInfo) : (s.raise e).mem = s.mem := rfl
@[simp] theorem State.raise_fb (e : FaultInfo) : (s.raise e).fb = s.fb := rfl
@[simp] theorem State.raise_keys (e : FaultInfo) : (s.raise e).keys = s.keys := rfl
@[simp] theorem State.raise_status (e : FaultInfo) : (s.raise e).status = .faulted e (s.pc - 2#12) := rfl
@[simp] theorem State.raise_cfg (e : FaultInfo) : (s.raise e).cfg = s.cfg := rfl
@[simp] theorem State.raise_inputs (e : FaultInfo) : (s.raise e).inputs = s.inputs := rfl
@[simp] theorem State.raise_rndIn (e : FaultInfo) : (s.raise e).rndIn = s.rndIn := rfl
@[simp] theorem State.raise_rndDraws (e : FaultInfo) : (s.raise e).rndDraws = s.rndDraws := rfl

/-! ## a drawing -/

@[simp] theorem State.drawn_v (d : Drawing) : (s.drawn d).v = s.v.set vf.toNat (flagByte d.collision) vf.isLt := rfl
@[simp] theorem State.drawn_pc (d : Drawing) : (s.drawn d).pc = s.pc := rfl
@[simp] theorem State.drawn_i (d : Drawing) : (s.drawn d).i = s.i := rfl
@[simp] theorem State.drawn_stack (d : Drawing) : (s.drawn d).stack = s.stack := rfl
@[simp] theorem State.drawn_dt (d : Drawing) : (s.drawn d).dt = s.dt := rfl
@[simp] theorem State.drawn_st (d : Drawing) : (s.drawn d).st = s.st := rfl
@[simp] theorem State.drawn_mem (d : Drawing) : (s.drawn d).mem = s.mem := rfl
@[simp] theorem State.drawn_fb (d : Drawing) : (s.drawn d).fb = d.fb := rfl
@[simp] theorem State.drawn_keys (d : Drawing) : (s.drawn d).keys = s.keys := rfl
@[simp] theorem State.drawn_status (d : Drawing) : (s.drawn d).status = s.status := rfl
@[simp] theorem State.drawn_cfg (d : Drawing) : (s.drawn d).cfg = s.cfg := rfl
@[simp] theorem State.drawn_inputs (d : Drawing) : (s.drawn d).inputs = s.inputs := rfl
@[simp] theorem State.drawn_rndIn (d : Drawing) : (s.drawn d).rndIn = s.rndIn := rfl
@[simp] theorem State.drawn_rndDraws (d : Drawing) : (s.drawn d).rndDraws = s.rndDraws := rfl

/-! ## Registers -/

/-- A written register reads as what was written; every other register reads as before. -/
theorem State.getV_setV (x r : RegIdx) (b : Byte) : (s.setV x b).getV r = if r = x then b else s.getV r := by
  by_cases h : r = x
  · subst h; simp [State.getV, State.setV]
  · have : ¬ x.toNat = r.toNat := fun e => h (BitVec.eq_of_toNat_eq e.symm)
    simp [State.getV, State.setV, h, this]

@[simp] theorem State.getV_setV_same (x : RegIdx) (b : Byte) : (s.setV x b).getV x = b := by
  simp [State.getV_setV]

/-- Two states with the same registers read the same. -/
theorem State.getV_congr {s t : State} (h : t.v = s.v) (r : RegIdx) : t.getV r = s.getV r := by
  simp [State.getV, h]

@[simp] theorem State.getV_setPc (a : Addr) (r : RegIdx) : (s.setPc a).getV r = s.getV r := rfl
@[simp] theorem State.getV_setI (a : Addr) (r : RegIdx) : (s.setI a).getV r = s.getV r := rfl
@[simp] theorem State.getV_setMem (m : Memory) (r : RegIdx) : (s.setMem m).getV r = s.getV r := rfl
@[simp] theorem State.getV_setFb (fb : Screen) (r : RegIdx) : (s.setFb fb).getV r = s.getV r := rfl
@[simp] theorem State.getV_push (a : Addr) (r : RegIdx) : (s.push a).getV r = s.getV r := rfl
@[simp] theorem State.getV_raise (e : FaultInfo) (r : RegIdx) : (s.raise e).getV r = s.getV r := rfl

theorem State.getV_drawn (d : Drawing) (r : RegIdx) :
    (s.drawn d).getV r = if r = vf then flagByte d.collision else s.getV r := by
  simp [State.drawn, State.getV_setV]

end Sys2Proof.Machine
end

