-- ==== Sys2Proof/Laws/Ops.lean ====
section
/-! SUPPORT. What each shared operation does, said once. -/

namespace Sys2Proof.Machine

/-! ## Addresses -/

theorem addrAdd_ok {a : Addr} {k : Nat} (h : a.toNat + k ≤ 0xFFF) :
    addrAdd a k = .ok (BitVec.ofNat 12 (a.toNat + k)) := by
  simp [addrAdd, topAddr, h]

theorem addrAdd_error {a : Addr} {k : Nat} (h : 0xFFF < a.toNat + k) :
    addrAdd a k = .error (.addressOverflow (a.toNat + k : Nat)) := by
  simp [addrAdd, topAddr, Nat.not_le.2 h]

theorem addrSub_ok {a : Addr} {k : Nat} (h : k ≤ a.toNat) :
    addrSub a k = .ok (BitVec.ofNat 12 (a.toNat - k)) := by
  simp [addrSub, h]

theorem addrSub_error {a : Addr} {k : Nat} (h : a.toNat < k) :
    addrSub a k = .error (.addressOverflow ((a.toNat : Int) - k)) := by
  simp [addrSub, Nat.not_le.2 h]

theorem toNat_addrOfNat {n : Nat} (h : n ≤ 0xFFF) : (BitVec.ofNat 12 n).toNat = n := by
  rw [BitVec.toNat_ofNat]; omega

/-- `AddrAdd(a, 2)` is addition of 2 where it does not fault. -/
theorem addrAdd_two {a : Addr} (h : a.toNat ≤ 0xFFD) : addrAdd a 2 = .ok (a + 2#12) := by
  rw [addrAdd_ok (by omega)]; rfl

/-! ## Memory -/

theorem outOfBounds_iff (a : Addr) (n : Nat) : outOfBounds a n = true ↔ 1 ≤ n ∧ 0xFFF < a.toNat + n - 1 := by
  simp only [outOfBounds, Bool.and_eq_true, decide_eq_true_eq]; rfl

theorem memRead_ok {m : Memory} {a : Addr} {n : Nat} (h : n = 0 ∨ a.toNat + n - 1 ≤ 0xFFF) :
    memRead m a n = .ok ((List.range n).map fun k => m.readByte (a.toNat + k)) := by
  rw [memRead, if_neg]; rw [outOfBounds_iff]; omega

theorem memRead_error {m : Memory} {a : Addr} {n : Nat} (h : 1 ≤ n) (h' : 0xFFF < a.toNat + n - 1) :
    memRead m a n = .error (.memoryOutOfBounds a n) := by
  rw [memRead, if_pos]; rw [outOfBounds_iff]; omega

theorem memWrite_ok {m : Memory} {a : Addr} {bs : List Byte}
    (h : bs.length = 0 ∨ a.toNat + bs.length - 1 ≤ 0xFFF) :
    memWrite m a bs = .ok (m.writeBytes a.toNat bs) := by
  rw [memWrite, if_neg]; rw [outOfBounds_iff]; omega

theorem memWrite_error {m : Memory} {a : Addr} {bs : List Byte} (h : 1 ≤ bs.length)
    (h' : 0xFFF < a.toNat + bs.length - 1) :
    memWrite m a bs = .error (.memoryOutOfBounds a bs.length) := by
  rw [memWrite, if_pos]; rw [outOfBounds_iff]; omega

/-- A write that does not fault keeps the canonical form. -/
theorem memWrite_wf {m m' : Memory} {a : Addr} {bs : List Byte} (hm : m.wf) (h : memWrite m a bs = .ok m') :
    m'.wf := by
  rw [memWrite] at h
  split at h
  · cases h
  · rename_i hb
    cases h
    rw [outOfBounds_iff] at hb
    exact Memory.wf_writeBytes hm (by simp only [topAddr]; omega)

theorem memRead16_ok {m : Memory} {a : Addr} (h : a.toNat ≤ 0xFFE) :
    memRead16 m a = .ok (m.readByte a.toNat ++ m.readByte (a.toNat + 1)) := by
  rw [memRead16, if_neg, bigEndian]; rw [outOfBounds_iff]; omega

theorem memRead16_error {m : Memory} {a : Addr} (h : a.toNat = 0xFFF) :
    memRead16 m a = .error (.memoryOutOfBounds a 2) := by
  rw [memRead16, if_pos]; rw [outOfBounds_iff]; omega

/-- The fetch at an address up to 0xFFD. -/
theorem fetch_ok {s : State} (h : s.pc.toNat ≤ 0xFFD) :
    fetch s = .ok (s.mem.readByte s.pc.toNat ++ s.mem.readByte (s.pc.toNat + 1), s.pc + 2#12) := by
  simp [fetch, memRead16_ok (by omega : s.pc.toNat ≤ 0xFFE), addrAdd_two h]

/-! ## Faults -/

@[simp] theorem State.attempt_ok {α : Type} (s : State) (a : α) (k : α → State) :
    s.attempt (.ok a) k = .next (k a) := rfl

@[simp] theorem State.attempt_error {α : Type} (s : State) (e : FaultInfo) (k : α → State) :
    s.attempt (.error e) k = .next (s.raise e) := rfl

/-- What `attempt` can answer: the continuation on a value, or the raised fault. -/
theorem State.attempt_cases {α : Type} {s t : State} {r : Except FaultInfo α} {k : α → State}
    (h : s.attempt r k = .next t) : (∃ a, r = .ok a ∧ t = k a) ∨ ∃ e, r = .error e ∧ t = s.raise e := by
  cases r with
  | ok a => cases h; exact .inl ⟨a, rfl, rfl⟩
  | error e => cases h; exact .inr ⟨e, rfl, rfl⟩

/-! ## Skips -/

theorem State.skipIf_false (s : State) : s.skipIf false = .next s := rfl

theorem State.skipIf_true {s : State} (h : s.pc.toNat ≤ 0xFFD) :
    s.skipIf true = .next (s.setPc (s.pc + 2#12)) := by
  simp [State.skipIf, addrAdd_two h]

theorem State.skipIf_fault {s : State} (h : 0xFFD < s.pc.toNat) :
    s.skipIf true = .next (s.raise (.addressOverflow (s.pc.toNat + 2 : Nat))) := by
  simp [State.skipIf, addrAdd_error (by omega : 0xFFF < s.pc.toNat + 2)]

/-- What a skip can answer: only PC moves, or the fault of the address. -/
theorem State.skipIf_cases {s t : State} {c : Bool} (h : s.skipIf c = .next t) :
    t = s ∨ (∃ a, t = s.setPc a) ∨ t = s.raise (.addressOverflow (s.pc.toNat + 2 : Nat)) := by
  cases c with
  | false => cases h; exact .inl rfl
  | true =>
    rcases Nat.lt_or_ge 0xFFD s.pc.toNat with hp | hp
    · rw [State.skipIf_fault hp] at h; cases h; exact .inr (.inr rfl)
    · rw [State.skipIf_true hp] at h; cases h; exact .inr (.inl ⟨_, rfl⟩)

/-! ## Registers in sequence, the flag write, the random byte -/

/-- Writing registers k, k + 1, … changes only general registers. -/
theorem State.setVFrom_eq (s : State) (k : Nat) (bs : List Byte) :
    s.setVFrom k bs = { s with v := (s.setVFrom k bs).v } := by
  induction bs generalizing s k with
  | nil => rfl
  | cons b bs ih => rw [State.setVFrom, ih]; rfl

theorem State.getV_setVFrom (s : State) (k : Nat) (bs : List Byte) (h : k + bs.length ≤ 16) (r : RegIdx) :
    (s.setVFrom k bs).getV r = if k ≤ r.toNat then bs.getD (r.toNat - k) (s.getV r) else s.getV r := by
  induction bs generalizing s k with
  | nil => simp [State.setVFrom]
  | cons b bs ih =>
    simp only [List.length_cons] at h
    rw [State.setVFrom, ih _ _ (by omega), State.getV_setV]
    have hk : (BitVec.ofNat 4 k).toNat = k := by rw [BitVec.toNat_ofNat]; omega
    by_cases e : r.toNat = k
    · have : r = BitVec.ofNat 4 k := BitVec.eq_of_toNat_eq (by rw [hk, e])
      subst this
      simp [hk]
    · have hr : ¬ r = BitVec.ofNat 4 k := fun x => e (by rw [x, hk])
      by_cases e' : k ≤ r.toNat
      · have : r.toNat - k = (r.toNat - (k + 1)) + 1 := by omega
        rw [if_pos (by omega), if_pos e', if_neg hr, this]; simp
      · rw [if_neg (by omega), if_neg e', if_neg hr]

/-- `WriteRF` changes only general registers. -/
theorem State.writeRF_eq (s : State) (op : FlagOp) (x : RegIdx) (r : Byte) (f : Bool) :
    s.writeRF op x r f = { s with v := (s.writeRF op x r f).v } := by
  unfold State.writeRF; split <;> rfl

/-- The registers after `WriteRF`: Vx and VF alone, the later write staying where they are one register. -/
theorem State.getV_writeRF (s : State) (op : FlagOp) (x q : RegIdx) (r : Byte) (f : Bool) :
    (s.writeRF op x r f).getV q =
      match destOrder s.cfg op with
      | .flagLast => if q = vf then flagByte f else if q = x then r else s.getV q
      | .resultLast => if q = x then r else if q = vf then flagByte f else s.getV q := by
  unfold State.writeRF; cases destOrder s.cfg op <;> simp [State.getV_setV]

theorem toNat_flagByte (f : Bool) : (flagByte f).toNat = f.toNat := by cases f <;> rfl

/-- A draw takes the host's next byte, or counts one free byte, and changes nothing else. -/
theorem State.drawRnd_eq (s : State) :
    s.drawRnd.2 = { s with rndIn := s.rndIn.tail, rndDraws := s.drawRnd.2.rndDraws } := by
  obtain ⟨v, pc, i, stack, dt, st, mem, fb, keys, status, cfg, inputs, rndIn, rndDraws⟩ := s
  cases rndIn <;> rfl

@[simp] theorem State.getV_drawRnd (s : State) (r : RegIdx) : s.drawRnd.2.getV r = s.getV r := by
  rw [State.drawRnd_eq]; rfl

/-! ## The table of `WAITKEY_PICK` -/

/-- The table answers with its first entry for the set of keys, wherever that stands. -/
theorem lookupPick_eq_some_iff {l : List (KeyFlags × Key)} {ks : KeyFlags} {p : Key} :
    lookupPick l ks = some p ↔ ∃ pre rest, l = pre ++ (ks, p) :: rest ∧ ∀ e ∈ pre, e.1 ≠ ks := by
  induction l with
  | nil => simp [lookupPick]
  | cons c l ih =>
    obtain ⟨ks', q⟩ := c
    rw [lookupPick]
    split
    · rename_i h
      subst h
      constructor
      · rintro ⟨⟩; exact ⟨[], l, rfl, by simp⟩
      · rintro ⟨pre, rest, e, hpre⟩
        cases pre with
        | nil => cases e; rfl
        | cons d pre => cases e; exact absurd rfl (hpre (ks', q) List.mem_cons_self)
    · rename_i h
      rw [ih]
      constructor
      · rintro ⟨pre, rest, rfl, hpre⟩
        exact ⟨(ks', q) :: pre, rest, rfl, by simpa [h] using hpre⟩
      · rintro ⟨pre, rest, e, hpre⟩
        cases pre with
        | nil => cases e; exact absurd rfl h
        | cons d pre => cases e; exact ⟨pre, rest, rfl, fun e he => hpre e (by simp [he])⟩

/-! ## The host's events -/

theorem toNat_tickDown (t : Byte) : (tickDown t).toNat = t.toNat - 1 := by
  have := t.isLt
  unfold tickDown
  split
  · rename_i h; simp [h]
  · rename_i h
    have h0 : t.toNat ≠ 0 := fun e => h (BitVec.eq_of_toNat_eq (by simpa using e))
    rw [BitVec.toNat_sub]; simp; omega

end Sys2Proof.Machine
end

