-- ==== Sys2Proof/Laws/Exec.lean ====
section
/-! SUPPORT. What the execute phase of any instruction, and what any step, can do to the state, said once. -/

namespace Sys2Proof.Machine

/-- What every instruction that does not fault keeps, and the two ways in which memory and stack can change. -/
structure Kept (s t : State) : Prop where
  status : t.status = s.status
  keys   : t.keys = s.keys
  cfg    : t.cfg = s.cfg
  inputs : t.inputs = s.inputs
  mem    : t.mem = s.mem ∨ ∃ bs, memWrite s.mem s.i bs = .ok t.mem
  stack  : t.stack = s.stack ∨ s.stack = t.pc :: t.stack ∨ (s.stackFull = false ∧ t.stack = s.pc :: s.stack)

/-- A fault the execute phase can raise: any kind but the two of decoding and of construction (R171). -/
def FaultInfo.ofExec : FaultInfo → Bool
  | .illegalInstruction _ | .loadOverflow _ => false
  | _ => true

/-- What one instruction can answer: the raised fault with nothing else changed, or a state that keeps what
`Kept` says. -/
def ExecOutcome (s : State) (r : Result) : Prop :=
  (∃ e, e.ofExec = true ∧ r = .next (s.raise e)) ∨ ∃ t, r = .next t ∧ Kept s t

theorem Kept.refl (s : State) : Kept s s := ⟨rfl, rfl, rfl, rfl, .inl rfl, .inl rfl⟩

theorem ExecOutcome.of_kept {s t : State} (h : Kept s t) : ExecOutcome s (.next t) := .inr ⟨t, rfl, h⟩

theorem ExecOutcome.of_raise {s : State} {e : FaultInfo} (h : e.ofExec = true) : ExecOutcome s (.next (s.raise e)) :=
  .inl ⟨e, h, rfl⟩

theorem ExecOutcome.of_attempt {α : Type} {s : State} {r : Except FaultInfo α} {k : α → State}
    (he : ∀ e, r = .error e → e.ofExec = true) (hk : ∀ a, r = .ok a → Kept s (k a)) : ExecOutcome s (s.attempt r k) := by
  cases r with
  | ok a => exact .of_kept (hk a rfl)
  | error e => exact .of_raise (he e rfl)

theorem addrAdd_ofExec {a : Addr} {k : Nat} {e : FaultInfo} (h : addrAdd a k = .error e) : e.ofExec = true := by
  unfold addrAdd at h; split at h <;> cases h; rfl

theorem addrSub_ofExec {a : Addr} {k : Nat} {e : FaultInfo} (h : addrSub a k = .error e) : e.ofExec = true := by
  unfold addrSub at h; split at h <;> cases h; rfl

theorem memRead_ofExec {m : Memory} {a : Addr} {n : Nat} {e : FaultInfo} (h : memRead m a n = .error e) :
    e.ofExec = true := by
  unfold memRead at h; split at h <;> cases h; rfl

theorem memWrite_ofExec {m : Memory} {a : Addr} {bs : List Byte} {e : FaultInfo} (h : memWrite m a bs = .error e) :
    e.ofExec = true := by
  unfold memWrite at h; split at h <;> cases h; rfl

theorem keyNamedBy_ofExec {s : State} {x : RegIdx} {e : FaultInfo} (h : s.keyNamedBy x = .error e) :
    e.ofExec = true := by
  unfold State.keyNamedBy at h; split at h <;> cases h; rfl

theorem State.kept_setPc (s : State) (a : Addr) : Kept s (s.setPc a) := ⟨rfl, rfl, rfl, rfl, .inl rfl, .inl rfl⟩

theorem State.kept_of_v {s t : State} (h : t = { s with v := t.v }) : Kept s t := by
  rw [h]; exact ⟨rfl, rfl, rfl, rfl, .inl rfl, .inl rfl⟩

theorem ExecOutcome.of_skip (s : State) (c : Bool) : ExecOutcome s (s.skipIf c) := by
  cases c with
  | false => exact .of_kept (.refl s)
  | true => exact .of_attempt (fun _ h => addrAdd_ofExec h) fun a _ => s.kept_setPc a

/-- What the execute phase of any instruction can do. -/
theorem exec_outcome (i : Instr) (s : State) : ExecOutcome s (exec i s) := by
  cases i with
  | clear => exact .of_kept ⟨rfl, rfl, rfl, rfl, .inl rfl, .inl rfl⟩
  | ret =>
    simp only [exec, execReturn]
    split
    · exact .of_raise rfl
    · rename_i a rest h
      exact .of_kept ⟨rfl, rfl, rfl, rfl, .inl rfl, .inr (.inl h)⟩
  | jump nnn => exact .of_kept (s.kept_setPc nnn)
  | call nnn =>
    simp only [exec, execCall]
    split
    · exact .of_raise rfl
    · rename_i h
      exact .of_kept ⟨rfl, rfl, rfl, rfl, .inl rfl, .inr (.inr ⟨by simpa using h, rfl⟩)⟩
  | eqNum x nn => exact .of_skip s _
  | neqNum x nn => exact .of_skip s _
  | eq x y => exact .of_skip s _
  | neq x y => exact .of_skip s _
  | setNum x nn => exact .of_kept (State.kept_of_v rfl)
  | addNum x nn => exact .of_kept (State.kept_of_v rfl)
  | set x y => exact .of_kept (State.kept_of_v rfl)
  | or x y => exact .of_kept (State.kept_of_v rfl)
  | and x y => exact .of_kept (State.kept_of_v rfl)
  | xor x y => exact .of_kept (State.kept_of_v rfl)
  | add x y => exact .of_kept (State.kept_of_v (s.writeRF_eq ..))
  | sub x y => exact .of_kept (State.kept_of_v (s.writeRF_eq ..))
  | subb x y => exact .of_kept (State.kept_of_v (s.writeRF_eq ..))
  | shr x y => exact .of_kept (State.kept_of_v (s.writeRF_eq ..))
  | shl x y => exact .of_kept (State.kept_of_v (s.writeRF_eq ..))
  | setIdx nnn => exact .of_kept ⟨rfl, rfl, rfl, rfl, .inl rfl, .inl rfl⟩
  | jumpV0 nnn => exact .of_attempt (fun _ h => addrAdd_ofExec h) fun a _ => s.kept_setPc a
  | rand x nn =>
    simp only [exec, execRand]
    rw [s.drawRnd_eq]
    exact .of_kept ⟨rfl, rfl, rfl, rfl, .inl rfl, .inl rfl⟩
  | draw x y n =>
    exact .of_attempt (fun _ h => memRead_ofExec h) fun a _ => ⟨rfl, rfl, rfl, rfl, .inl rfl, .inl rfl⟩
  | keyEq x =>
    simp only [exec, execKeyEq]
    split
    · exact .of_skip s _
    · rename_i h; exact .of_raise (keyNamedBy_ofExec h)
  | keyNeq x =>
    simp only [exec, execKeyNeq]
    split
    · exact .of_skip s _
    · rename_i h; exact .of_raise (keyNamedBy_ofExec h)
  | getDelay x => exact .of_kept (State.kept_of_v rfl)
  | waitKey x =>
    simp only [exec, execWaitKey]
    split
    · exact .of_kept (State.kept_of_v rfl)
    · exact .of_attempt (fun _ h => addrSub_ofExec h) fun a _ => s.kept_setPc a
  | setDelay x => exact .of_kept ⟨rfl, rfl, rfl, rfl, .inl rfl, .inl rfl⟩
  | setSound x => exact .of_kept ⟨rfl, rfl, rfl, rfl, .inl rfl, .inl rfl⟩
  | addIdx x =>
    exact .of_attempt (fun _ h => addrAdd_ofExec h) fun a _ => ⟨rfl, rfl, rfl, rfl, .inl rfl, .inl rfl⟩
  | setSprite x =>
    exact .of_attempt (fun _ h => addrAdd_ofExec h) fun a _ => ⟨rfl, rfl, rfl, rfl, .inl rfl, .inl rfl⟩
  | storeBcd x =>
    exact .of_attempt (fun _ h => memWrite_ofExec h) fun m h => ⟨rfl, rfl, rfl, rfl, .inr ⟨_, h⟩, .inl rfl⟩
  | store x =>
    exact .of_attempt (fun _ h => memWrite_ofExec h) fun m h => ⟨rfl, rfl, rfl, rfl, .inr ⟨_, h⟩, .inl rfl⟩
  | load x => exact .of_attempt (fun _ h => memRead_ofExec h) fun bs _ => State.kept_of_v (s.setVFrom_eq ..)

/-- PC two further and two back is PC: A again (R172). -/
theorem addr_add_sub_two (a : Addr) : a + 2#12 - 2#12 = a := by
  apply BitVec.eq_of_toNat_eq
  have := a.isLt
  rw [BitVec.toNat_sub, BitVec.toNat_add]
  simp only [BitVec.toNat_ofNat]; omega

/-- What an instruction step can do: record a fault with A and change nothing else, or run an instruction that does
not fault on the state after the fetch. -/
theorem instrStep_cases (s : State) :
    (∃ e, (∀ n, e ≠ .loadOverflow n) ∧ instrStep s = .next { s with status := .faulted e s.pc }) ∨
    ∃ i t, instrStep s = .next t ∧ exec i (s.setPc (s.pc + 2#12)) = .next t ∧ Kept (s.setPc (s.pc + 2#12)) t := by
  have hpc := s.pc.isLt
  rcases Nat.lt_or_ge 0xFFD s.pc.toNat with hp | hp
  · left
    unfold instrStep fetch
    rcases Nat.lt_or_ge 0xFFE s.pc.toNat with hp' | hp'
    · rw [memRead16_error (by omega)]
      exact ⟨_, by simp, rfl⟩
    · rw [memRead16_ok (by omega), addrAdd_error (by omega)]
      exact ⟨_, by simp, rfl⟩
  · unfold instrStep
    rw [fetch_ok hp]
    simp only
    split
    · exact .inl ⟨_, by simp, rfl⟩
    · rename_i i _
      rcases exec_outcome i (s.setPc (s.pc + 2#12)) with ⟨e, he, hr⟩ | ⟨t, ht, hk⟩
      · left
        refine ⟨e, ?_, ?_⟩
        · rintro n rfl; cases he
        rw [hr, State.raise, State.faultAt, State.instrAddr, State.setPc_pc, addr_add_sub_two]; rfl
      · exact .inr ⟨i, t, ht, ht, hk⟩

/-- What a step of a running core can be: an instruction step, a timer tick or a key change. -/
theorem step_running {s : State} (h : s.status = .running) :
    step s = instrStep { s with inputs := s.inputs.tail } ∨
    (∃ q, s.inputs = .tick60 :: q ∧
      step s = .next { s with inputs := q, dt := tickDown s.dt, st := tickDown s.st }) ∨
    ∃ k b q, s.inputs = .keySet k b :: q ∧
      ∃ ks, step s = .next { s with inputs := q, keys := ks } := by
  obtain ⟨v, pc, i, stack, dt, st, mem, fb, keys, status, cfg, inputs, rndIn, rndDraws⟩ := s
  cases h
  cases inputs with
  | nil => exact .inl rfl
  | cons e q =>
    cases e with
    | step => exact .inl rfl
    | tick60 => exact .inr (.inl ⟨q, rfl, rfl⟩)
    | keySet k b =>
      refine .inr (.inr ⟨k, b, q, rfl, if hk : k < 16 then keys.set k b hk else keys, ?_⟩)
      simp only [step, nextEvent, setKeyPressed]
      split <;> rfl

/-- A Faulted core stops. -/
theorem step_faulted {s : State} {e : FaultInfo} {a : Addr} (h : s.status = .faulted e a) :
    step s = .fault (.halted e a) := by
  simp only [step, h]

end Sys2Proof.Machine
end

