-- ==== Sys2Proof/Laws/PerInstr.lean ====
section
/-! SUPPORT. A fact about every instruction, one lemma for each constructor: the group nibble of its word
(spec 30_encoding.md R74, R77). -/

namespace Sys2Proof.Laws.Group

/-- The group, bits 15:12, that the opcode map gives the instruction (R77). -/
def groupOf : Instr → Nibble
  | .clear | .ret => 0x0
  | .jump _ => 0x1
  | .call _ => 0x2
  | .eqNum _ _ => 0x3
  | .neqNum _ _ => 0x4
  | .eq _ _ => 0x5
  | .setNum _ _ => 0x6
  | .addNum _ _ => 0x7
  | .set _ _ | .or _ _ | .and _ _ | .xor _ _ | .add _ _ | .sub _ _ | .shr _ _ | .subb _ _ | .shl _ _ => 0x8
  | .neq _ _ => 0x9
  | .setIdx _ => 0xA
  | .jumpV0 _ => 0xB
  | .rand _ _ => 0xC
  | .draw _ _ _ => 0xD
  | .keyEq _ | .keyNeq _ => 0xE
  | .getDelay _ | .waitKey _ | .setDelay _ | .setSound _ | .addIdx _ | .setSprite _ | .storeBcd _ | .store _
  | .load _ => 0xF

/-- The word of the instruction has its group's nibble. -/
def Statement (i : Instr) : Prop := fieldOp (encode i) = groupOf i

theorem clear : Statement .clear := by unfold Statement; decide
theorem ret : Statement .ret := by unfold Statement; decide
theorem jump (nnn : Addr) : Statement (.jump nnn) := fieldOp_wordA ..
theorem call (nnn : Addr) : Statement (.call nnn) := fieldOp_wordA ..
theorem eqNum (x : RegIdx) (nn : Byte) : Statement (.eqNum x nn) := fieldOp_wordXI ..
theorem neqNum (x : RegIdx) (nn : Byte) : Statement (.neqNum x nn) := fieldOp_wordXI ..
theorem eq (x y : RegIdx) : Statement (.eq x y) := fieldOp_wordXY ..
theorem setNum (x : RegIdx) (nn : Byte) : Statement (.setNum x nn) := fieldOp_wordXI ..
theorem addNum (x : RegIdx) (nn : Byte) : Statement (.addNum x nn) := fieldOp_wordXI ..
theorem set (x y : RegIdx) : Statement (.set x y) := fieldOp_wordXY ..
theorem or (x y : RegIdx) : Statement (.or x y) := fieldOp_wordXY ..
theorem and (x y : RegIdx) : Statement (.and x y) := fieldOp_wordXY ..
theorem xor (x y : RegIdx) : Statement (.xor x y) := fieldOp_wordXY ..
theorem add (x y : RegIdx) : Statement (.add x y) := fieldOp_wordXY ..
theorem sub (x y : RegIdx) : Statement (.sub x y) := fieldOp_wordXY ..
theorem shr (x y : RegIdx) : Statement (.shr x y) := fieldOp_wordXY ..
theorem subb (x y : RegIdx) : Statement (.subb x y) := fieldOp_wordXY ..
theorem shl (x y : RegIdx) : Statement (.shl x y) := fieldOp_wordXY ..
theorem neq (x y : RegIdx) : Statement (.neq x y) := fieldOp_wordXY ..
theorem setIdx (nnn : Addr) : Statement (.setIdx nnn) := fieldOp_wordA ..
theorem jumpV0 (nnn : Addr) : Statement (.jumpV0 nnn) := fieldOp_wordA ..
theorem rand (x : RegIdx) (nn : Byte) : Statement (.rand x nn) := fieldOp_wordXI ..
theorem draw (x y : RegIdx) (n : Nibble) : Statement (.draw x y n) := fieldOp_wordXY ..
theorem keyEq (x : RegIdx) : Statement (.keyEq x) := fieldOp_wordXY ..
theorem keyNeq (x : RegIdx) : Statement (.keyNeq x) := fieldOp_wordXY ..
theorem getDelay (x : RegIdx) : Statement (.getDelay x) := fieldOp_wordXY ..
theorem waitKey (x : RegIdx) : Statement (.waitKey x) := fieldOp_wordXY ..
theorem setDelay (x : RegIdx) : Statement (.setDelay x) := fieldOp_wordXY ..
theorem setSound (x : RegIdx) : Statement (.setSound x) := fieldOp_wordXY ..
theorem addIdx (x : RegIdx) : Statement (.addIdx x) := fieldOp_wordXY ..
theorem setSprite (x : RegIdx) : Statement (.setSprite x) := fieldOp_wordXY ..
theorem storeBcd (x : RegIdx) : Statement (.storeBcd x) := fieldOp_wordXY ..
theorem store (x : RegIdx) : Statement (.store x) := fieldOp_wordXY ..
theorem load (x : RegIdx) : Statement (.load x) := fieldOp_wordXY ..

end Sys2Proof.Laws.Group
end

