-- ==== Sys2Proof/Laws/Screen.lean ====
section
/-! SUPPORT. What one toggled pixel, one drawn byte and one drawn sprite change on the screen (spec 42_display.md
R140, R141). -/

namespace Sys2Proof.Machine

theorem pixel_clearScreen (c r : Nat) : pixel clearScreen c r = false := by
  simp [pixel, clearScreen]

/-- A toggle flips its own pixel and leaves every other one. -/
theorem pixel_togglePixel (fb : Screen) (c r c' r' : Nat) :
    pixel (togglePixel fb c r) c' r' = (pixel fb c' r' ^^ (decide (c' % 64 = c % 64) && decide (r' % 32 = r % 32))) := by
  unfold pixel togglePixel
  rw [Vector.getElem_set]
  by_cases hr : r' % 32 = r % 32
  · rw [if_pos hr.symm]
    have hc : c % 64 < 64 := Nat.mod_lt c (by decide)
    have hc' : c' % 64 < 64 := Nat.mod_lt c' (by decide)
    simp only [hr, BitVec.getLsbD_xor, BitVec.getLsbD_shiftLeft, hc', decide_true, Bool.true_and, Bool.and_true]
    congr 1
    by_cases h : c' % 64 = c % 64
    · simp [h]
    · by_cases hlt : c' % 64 < c % 64
      · simp [hlt, h]
      · have : c' % 64 - c % 64 ≠ 0 := by omega
        simp [hlt, h, BitVec.getLsbD_one, this]
  · rw [if_neg (fun h => hr h.symm)]
    simp [hr]

/-- The bit of a sprite byte at screen column c among its last `left` columns, drawn from column x0. -/
def byteBit (x0 : Nat) (b : Byte) (left c : Nat) : Bool :=
  let col := (c + 64 - x0 % 64) % 64
  decide (col < 8) && decide (7 - col < left) && b.getLsbD (7 - col)

theorem byteBit_succ (x0 : Nat) (b : Byte) {left c : Nat} (hl : left < 8) (hc : c < 64) :
    byteBit x0 b (left + 1) c =
      (byteBit x0 b left c ^^ (b.getLsbD left && decide (c = (x0 + (7 - left)) % 64))) := by
  unfold byteBit
  simp only
  by_cases h : (c + 64 - x0 % 64) % 64 = 7 - left
  · have e1 : c = (x0 + (7 - left)) % 64 := by omega
    have e2 : 7 - (7 - left) = left := by omega
    have e3 : 7 - left < 8 := by omega
    simp [h, e2, e3, ← e1]
  · have e1 : c ≠ (x0 + (7 - left)) % 64 := by omega
    by_cases h8 : (c + 64 - x0 % 64) % 64 < 8
    · have e2 : (7 - (c + 64 - x0 % 64) % 64 < left + 1) = (7 - (c + 64 - x0 % 64) % 64 < left) := by
        apply propext; omega
      simp [h8, e1, e2]
    · simp [h8, e1]

/-- At its own newest column the bits drawn later do not land. -/
theorem byteBit_at (x0 : Nat) (b : Byte) {left : Nat} (hl : left < 8) :
    byteBit x0 b left ((x0 + (7 - left)) % 64) = false := by
  unfold byteBit
  have : ((x0 + (7 - left)) % 64 + 64 - x0 % 64) % 64 = 7 - left := by omega
  simp only [this]
  have e2 : 7 - (7 - left) = left := by omega
  simp [e2]

theorem drawBit_fb (d : Drawing) (bit : Bool) (c r : Nat) (c' r' : Nat) :
    pixel (drawBit d bit c r).fb c' r' =
      (pixel d.fb c' r' ^^ (bit && (decide (c' % 64 = c % 64) && decide (r' % 32 = r % 32)))) := by
  cases bit with
  | false => simp [drawBit]
  | true => simp [drawBit, pixel_togglePixel]

theorem drawBit_collision (d : Drawing) (bit : Bool) (c r : Nat) :
    (drawBit d bit c r).collision = (d.collision || (bit && pixel d.fb c r)) := by
  cases bit <;> simp [drawBit]

/-- One drawn byte XORs its bits into its own row. -/
theorem pixel_drawByte (x0 r : Nat) (b : Byte) {left : Nat} (hl : left ≤ 8) (d : Drawing) {c' : Nat} (r' : Nat)
    (hc : c' < 64) :
    pixel (drawByte x0 r b left d).fb c' r' =
      (pixel d.fb c' r' ^^ (decide (r' % 32 = r % 32) && byteBit x0 b left c')) := by
  induction left generalizing d with
  | zero => simp [drawByte, byteBit]
  | succ left ih =>
    rw [drawByte, ih (by omega), drawBit_fb, byteBit_succ x0 b (by omega) hc, Nat.mod_eq_of_lt hc]
    cases pixel d.fb c' r' <;> cases b.getLsbD left <;> cases byteBit x0 b left c' <;>
      cases decide (c' = (x0 + (7 - left)) % 64) <;> cases decide (r' % 32 = r % 32) <;> rfl

theorem pixel_mod_left (fb : Screen) (c r : Nat) : pixel fb (c % 64) r = pixel fb c r := by
  simp [pixel]

theorem pixel_mod_right (fb : Screen) (c r : Nat) : pixel fb c (r % 32) = pixel fb c r := by
  simp [pixel]

/-- One drawn byte collides iff one of its bits of 1 lands on a pixel that was set. -/
theorem collision_drawByte (x0 r : Nat) (b : Byte) {left : Nat} (hl : left ≤ 8) (d : Drawing) :
    (drawByte x0 r b left d).collision = true ↔
      d.collision = true ∨ ∃ c, c < 64 ∧ pixel d.fb c r = true ∧ byteBit x0 b left c = true := by
  induction left generalizing d with
  | zero => simp [drawByte, byteBit]
  | succ left ih =>
    rw [drawByte, ih (by omega), drawBit_collision]
    have hm : (x0 + (7 - left)) % 64 < 64 := Nat.mod_lt _ (by decide)
    constructor
    · rintro (h | ⟨c, hc, hp, hb⟩)
      · rw [Bool.or_eq_true, Bool.and_eq_true] at h
        refine h.imp_right fun ⟨hb, hp⟩ => ⟨(x0 + (7 - left)) % 64, hm, ?_, ?_⟩
        · rw [pixel_mod_left]; exact hp
        · rw [byteBit_succ x0 b (by omega) hm, byteBit_at x0 b (by omega), hb]; simp
      · have hne : c ≠ (x0 + (7 - left)) % 64 := by
          rintro rfl; rw [byteBit_at x0 b (by omega)] at hb; cases hb
        rw [drawBit_fb, Nat.mod_eq_of_lt hc] at hp
        refine .inr ⟨c, hc, ?_, ?_⟩
        · simpa [hne] using hp
        · rw [byteBit_succ x0 b (by omega) hc, hb]; simp [hne]
    · rintro (h | ⟨c, hc, hp, hb⟩)
      · exact .inl (by simp [h])
      · rw [byteBit_succ x0 b (by omega) hc] at hb
        by_cases hne : c = (x0 + (7 - left)) % 64
        · subst hne
          rw [byteBit_at x0 b (by omega)] at hb
          rw [pixel_mod_left] at hp
          refine .inl ?_
          simp only [decide_true, Bool.and_true, Bool.false_xor] at hb
          simp [hp, hb]
        · refine .inr ⟨c, hc, ?_, ?_⟩
          · rw [drawBit_fb, Nat.mod_eq_of_lt hc]; simp [hne, hp]
          · simpa [hne] using hb

/-- The bit of a sprite at screen pixel (c, r), the sprite drawn from (x0, y0). -/
def spriteHit (x0 y0 : Nat) (spr : List Byte) (c r : Nat) : Bool :=
  byteBit x0 (spr.getD ((r + 32 - y0 % 32) % 32) 0#8) 8 c

theorem spriteHit_nil (x0 y0 c r : Nat) : spriteHit x0 y0 [] c r = false := by
  simp [spriteHit, byteBit]

theorem spriteHit_cons (x0 y0 : Nat) (b : Byte) (bs : List Byte) (c : Nat) {r : Nat} (hr : r < 32) :
    spriteHit x0 y0 (b :: bs) c r =
      if r = y0 % 32 then byteBit x0 b 8 c else spriteHit x0 (y0 + 1) bs c r := by
  unfold spriteHit
  split
  · rename_i h
    have : (r + 32 - y0 % 32) % 32 = 0 := by omega
    simp [this]
  · rename_i h
    have : (r + 32 - y0 % 32) % 32 = (r + 32 - (y0 + 1) % 32) % 32 + 1 := by omega
    rw [this]; simp

/-- The rows after a byte's own do not reach it again while the sprite is shorter than the screen. -/
theorem spriteHit_own_row (x0 y0 : Nat) (bs : List Byte) (c : Nat) (hl : bs.length < 32) :
    spriteHit x0 (y0 + 1) bs c (y0 % 32) = false := by
  unfold spriteHit
  have : (y0 % 32 + 32 - (y0 + 1) % 32) % 32 = 31 := by omega
  rw [this]
  by_cases h : bs.length = 32
  · omega
  · rw [List.getD_eq_default _ _ (by omega)]
    simp [byteBit]

/-- A drawn sprite of at most 32 bytes XORs its bits onto the screen. -/
theorem pixel_drawRows (x0 y0 : Nat) {bs : List Byte} (hl : bs.length ≤ 32) (d : Drawing) {c r : Nat} (hc : c < 64)
    (hr : r < 32) :
    pixel (drawRows x0 y0 bs d).fb c r = (pixel d.fb c r ^^ spriteHit x0 y0 bs c r) := by
  induction bs generalizing y0 d with
  | nil => simp [drawRows, spriteHit_nil]
  | cons b bs ih =>
    simp only [List.length_cons] at hl
    rw [drawRows, ih _ (by omega), pixel_drawByte _ _ _ (by omega) _ _ hc, spriteHit_cons _ _ _ _ _ hr,
      Nat.mod_eq_of_lt hr]
    split
    · rename_i h
      subst h; rw [spriteHit_own_row _ _ _ _ (by omega)]; simp
    · rename_i h; simp [h]

/-- A drawn sprite of at most 32 bytes collides iff one of its bits of 1 lands on a pixel that was set. -/
theorem collision_drawRows (x0 y0 : Nat) {bs : List Byte} (hl : bs.length ≤ 32) (d : Drawing) :
    (drawRows x0 y0 bs d).collision = true ↔
      d.collision = true ∨ ∃ c r, c < 64 ∧ r < 32 ∧ pixel d.fb c r = true ∧ spriteHit x0 y0 bs c r = true := by
  induction bs generalizing y0 d with
  | nil => simp [drawRows, spriteHit_nil]
  | cons b bs ih =>
    simp only [List.length_cons] at hl
    have hy : y0 % 32 < 32 := Nat.mod_lt _ (by decide)
    rw [drawRows, ih _ (by omega), collision_drawByte _ _ _ (by omega), or_assoc]
    refine or_congr_right ?_
    constructor
    · rintro (⟨c, hc, hp, hb⟩ | ⟨c, r, hc, hr, hp, hb⟩)
      · refine ⟨c, y0 % 32, hc, hy, by rwa [pixel_mod_right], ?_⟩
        rw [spriteHit_cons _ _ _ _ _ hy, if_pos rfl]; exact hb
      · have hne : r ≠ y0 % 32 := by
          rintro rfl; rw [spriteHit_own_row _ _ _ _ (by omega)] at hb; cases hb
        rw [pixel_drawByte _ _ _ (by omega) _ _ hc, Nat.mod_eq_of_lt hr] at hp
        refine ⟨c, r, hc, hr, by simpa [hne] using hp, ?_⟩
        rw [spriteHit_cons _ _ _ _ _ hr, if_neg hne]; exact hb
    · rintro ⟨c, r, hc, hr, hp, hb⟩
      rw [spriteHit_cons _ _ _ _ _ hr] at hb
      split at hb
      · rename_i h
        subst h; rw [pixel_mod_right] at hp
        exact .inl ⟨c, hc, hp, hb⟩
      · rename_i hne
        refine .inr ⟨c, r, hc, hr, ?_, hb⟩
        rw [pixel_drawByte _ _ _ (by omega) _ _ hc, Nat.mod_eq_of_lt hr]; simp [hne, hp]

/-- Two screens with the same pixels are the same screen. -/
theorem screen_ext {fb fb' : Screen} (h : ∀ c r, c < 64 → r < 32 → pixel fb c r = pixel fb' c r) : fb = fb' := by
  apply Vector.ext
  intro r hr
  apply BitVec.eq_of_getLsbD_eq
  intro c hc
  have := h c r hc hr
  simpa [pixel, Nat.mod_eq_of_lt hr, Nat.mod_eq_of_lt hc] using this

end Sys2Proof.Machine
end

