-- ==== Sys2Proof/Machine/Asm.lean ====
section
/-! DEFINITION. The assembly syntax of an instruction, as a disassembler prints it (spec 00_scope.md R17;
30_encoding.md R84, R85).  No instruction's effect depends on it. -/

namespace Sys2Proof

/-- One hexadecimal digit. -/
def hexDigit (d : Nibble) : String :=
  String.singleton (("0123456789ABCDEF".toList).getD d.toNat '0')

/-- A register, `V0`–`VF` (R84). -/
def regText (x : RegIdx) : String := "V" ++ hexDigit x

/-- An immediate byte, `0x` and two digits (R84). -/
def byteText (nn : Byte) : String := "0x" ++ hexDigit (nn.extractLsb' 4 4) ++ hexDigit (nn.extractLsb' 0 4)

/-- An address, `0x` and three digits (R84). -/
def addrText (nnn : Addr) : String :=
  "0x" ++ hexDigit (nnn.extractLsb' 8 4) ++ hexDigit (nnn.extractLsb' 4 4) ++ hexDigit (nnn.extractLsb' 0 4)

/-- A sprite height, in decimal as in the programs of 95_test_vectors.md (assumption log 15). -/
def heightText (n : Nibble) : String :=
  if n.toNat < 10 then hexDigit n else "1" ++ hexDigit (n - 10#4)

/-- One register operand. -/
def textX (name : String) (x : RegIdx) : String := name ++ " " ++ regText x

/-- Two register operands. -/
def textXY (name : String) (x y : RegIdx) : String := textX name x ++ ", " ++ regText y

/-- A register and an immediate. -/
def textXI (name : String) (x : RegIdx) (nn : Byte) : String := textX name x ++ ", " ++ byteText nn

/-- An address operand. -/
def textA (name : String) (nnn : Addr) : String := name ++ " " ++ addrText nnn

/-- A shift: the register, and the ignored y appended when it is not 0, so that the word can be read back
(R82, R84). -/
def textShift (name : String) (x y : RegIdx) : String :=
  if y = 0x0#4 then textX name x else textX name x ++ "; y=" ++ hexDigit y

/-- The line of assembly of an instruction (R84). -/
def Instr.asm : Instr → String
  | .clear => "Clear"
  | .ret => "Return"
  | .jump nnn => textA "Jump" nnn
  | .call nnn => textA "Call" nnn
  | .eqNum x nn => textXI "EqNum" x nn
  | .neqNum x nn => textXI "NeqNum" x nn
  | .eq x y => textXY "Eq" x y
  | .setNum x nn => textXI "SetNum" x nn
  | .addNum x nn => textXI "AddNum" x nn
  | .set x y => textXY "Set" x y
  | .or x y => textXY "Or" x y
  | .and x y => textXY "And" x y
  | .xor x y => textXY "Xor" x y
  | .add x y => textXY "Add" x y
  | .sub x y => textXY "Sub" x y
  | .shr x y => textShift "Shr" x y
  | .subb x y => textXY "Subb" x y
  | .shl x y => textShift "Shl" x y
  | .neq x y => textXY "Neq" x y
  | .setIdx nnn => textA "SetIdx" nnn
  | .jumpV0 nnn => textA "JumpV0" nnn
  | .rand x nn => textXI "Rand" x nn
  | .draw x y n => textXY "Draw" x y ++ ", " ++ heightText n
  | .keyEq x => textX "KeyEq" x
  | .keyNeq x => textX "KeyNeq" x
  | .getDelay x => textX "GetDelay" x
  | .waitKey x => textX "WaitKey" x
  | .setDelay x => textX "SetDelay" x
  | .setSound x => textX "SetSound" x
  | .addIdx x => textX "AddIdx" x
  | .setSprite x => textX "SetSprite" x
  | .storeBcd x => textX "StoreBcd" x
  | .store x => textX "Store" x
  | .load x => textX "Load" x

end Sys2Proof
end

