-- ==== Sys2Proof/Tests/Slice0.lean ====
section
/-! SUPPORT. The model's own tests.  Every expected result is from the spec: the examples S1–S9 and the vectors
V1–V110 of 95_test_vectors.md, the examples of the instruction rules, or the patterns of 30_encoding.md R77.  The
second half shows, for each statement with hypotheses, concrete states that meet them. -/

namespace Sys2Proof.Tests

open Sys2Proof.Machine Sys2Proof.Claims

/-! ## Checks of ranges (S9; 00_scope.md R13, R16, 10_state.md R23) -/

theorem test_address_check : newAddr 4095 = some 0xFFF#12 ∧ newAddr 4096 = none := by decide
theorem test_register_index_check : newRegIdx 15 = some 0xF#4 ∧ newRegIdx 16 = none := by decide
theorem test_key_check : newKey 15 = some 0xF#4 ∧ newKey 16 = none := by decide
theorem test_immediate_check : newByte 255 = some 0xFF#8 ∧ newByte 256 = none := by decide
theorem test_height_check : newHeight 15 = some 0xF#4 ∧ newHeight 16 = none := by decide
/-- The operands of an instruction at the ends of their ranges are well formed. -/
theorem test_wellFormed_ends : (Instr.draw 0xF#4 0xF#4 0xF#4).wellFormed = true ∧
    (Instr.jump 0xFFF#12).wellFormed = true ∧ (Instr.rand 0xF#4 0xFF#8).wellFormed = true := by decide

/-! ## Decoding: a word of every row, written out from R77 -/

theorem test_decode_formatZ : decode 0b0000000011100000#16 = .ok .clear ∧
    decode 0b0000000011101110#16 = .ok .ret := by decide
theorem test_decode_formatA : decode 0b0001101010111100#16 = .ok (.jump 0xABC#12) ∧
    decode 0x2300#16 = .ok (.call 0x300#12) ∧ decode 0xA2F0#16 = .ok (.setIdx 0x2F0#12) ∧
    decode 0xBFF0#16 = .ok (.jumpV0 0xFF0#12) := by decide
theorem test_decode_formatXI : decode 0b0110101000101011#16 = .ok (.setNum 0xA#4 0x2B#8) ∧
    decode 0x3207#16 = .ok (.eqNum 0x2#4 0x07#8) ∧ decode 0x4207#16 = .ok (.neqNum 0x2#4 0x07#8) ∧
    decode 0x7A02#16 = .ok (.addNum 0xA#4 0x02#8) ∧ decode 0xC30F#16 = .ok (.rand 0x3#4 0x0F#8) := by decide
theorem test_decode_skipsXY : decode 0b0101000100100000#16 = .ok (.eq 0x1#4 0x2#4) ∧
    decode 0x9120#16 = .ok (.neq 0x1#4 0x2#4) := by decide
theorem test_decode_group8_low : decode 0b1000000100110000#16 = .ok (.set 0x1#4 0x3#4) ∧
    decode 0x8121#16 = .ok (.or 0x1#4 0x2#4) ∧ decode 0x8122#16 = .ok (.and 0x1#4 0x2#4) ∧
    decode 0x8123#16 = .ok (.xor 0x1#4 0x2#4) := by decide
theorem test_decode_group8_high : decode 0b1000000100100100#16 = .ok (.add 0x1#4 0x2#4) ∧
    decode 0x8125#16 = .ok (.sub 0x1#4 0x2#4) ∧ decode 0x81F6#16 = .ok (.shr 0x1#4 0xF#4) ∧
    decode 0x8127#16 = .ok (.subb 0x1#4 0x2#4) ∧ decode 0x840E#16 = .ok (.shl 0x4#4 0x0#4) := by decide
theorem test_decode_draw : decode 0b1101000000010101#16 = .ok (.draw 0x0#4 0x1#4 0x5#4) := by decide
theorem test_decode_keys : decode 0b1110010110011110#16 = .ok (.keyEq 0x5#4) ∧
    decode 0xE5A1#16 = .ok (.keyNeq 0x5#4) := by decide
theorem test_decode_timers : decode 0b1111001100000111#16 = .ok (.getDelay 0x3#4) ∧
    decode 0xF10A#16 = .ok (.waitKey 0x1#4) ∧ decode 0xF215#16 = .ok (.setDelay 0x2#4) ∧
    decode 0xF218#16 = .ok (.setSound 0x2#4) := by decide
theorem test_decode_index_memory : decode 0b1111101000110011#16 = .ok (.storeBcd 0xA#4) ∧
    decode 0xF41E#16 = .ok (.addIdx 0x4#4) ∧ decode 0xFA29#16 = .ok (.setSprite 0xA#4) ∧
    decode 0xF255#16 = .ok (.store 0x2#4) ∧ decode 0xF265#16 = .ok (.load 0x2#4) := by decide
/-- V48, V100–V103 and S4: words that are no instruction. -/
theorem test_decode_rejects : decode 0x0123#16 = .error (.group0 0x0123#16) ∧
    decode 0x5121#16 = .error (.group5 0x5121#16) ∧ decode 0x8008#16 = .error (.group8 0x8008#16) ∧
    decode 0x9121#16 = .error (.group9 0x9121#16) ∧ decode 0xE09F#16 = .error (.groupE 0xE09F#16) ∧
    decode 0xF000#16 = .error (.groupF 0xF000#16) ∧ decodeBytes [0x00#8] = .error .truncated := by decide
theorem test_decodeTableWord : decodeTableWord 16 0x1ABC = some (.jump 0xABC#12) ∧
    decodeTableWord 16 0x0123 = none := by decide
/-- R51: the byte at the lower address is the high one. -/
theorem test_encodeBytes : encodeBytes (.setNum 0xA#4 0x2B#8) = [0x6A#8, 0x2B#8] := by decide
/-- R84 and the programs P1 and P3. -/
theorem test_asm : Instr.asm (.setNum 0x0#4 0x05#8) = "SetNum V0, 0x05" ∧
    Instr.asm (.jump 0x204#12) = "Jump 0x204" ∧ Instr.asm (.draw 0x0#4 0x1#4 0x5#4) = "Draw V0, V1, 5" ∧
    Instr.asm (.shr 0x1#4 0xF#4) = "Shr V1; y=F" := by decide

/-! ## One step from a small state -/

/-- Reset with the word w at the address a and PC there. -/
def placeAt (a : Addr) (w : InstrWord) (s : State) : State := { s with pc := a, mem := placeWord s.mem a w }

/-- Reset with registers written. -/
def withV (l : List (RegIdx × Byte)) (s : State := State.reset) : State := l.foldl (fun s p => s.setV p.1 p.2) s

/-- Reset with one key pressed. -/
def withKey (k : Nat) (s : State) : State := setKeyPressed k true s

/-- One step from the word w at a gives a next state with the property. -/
def gives (a : Addr) (w : InstrWord) (s : State) (p : State → Bool) : Bool :=
  match step (placeAt a w s) with
  | .next t => p t
  | _ => false

/-- One step from the word w at a records the fault with the address a and changes nothing else. -/
def faultsAs (a : Addr) (w : InstrWord) (s : State) (e : FaultInfo) : Bool :=
  match step (placeAt a w s) with
  | .next t => decide (t = { placeAt a w s with status := .faulted e a })
  | _ => false

theorem test_V1_setNum : gives 0x200 0x6A2B (withV []) (fun t => t.getV 0xA == 0x2B && t.pc == 0x202) = true := by
  decide
theorem test_V2_addNum : gives 0x200 0x7A02 (withV [(0xA, 0xFF), (0xF, 0x07)])
    (fun t => t.getV 0xA == 0x01 && t.getV vf == 0x07) = true := by decide
theorem test_V3_set : gives 0x200 0x8130 (withV [(0x3, 0x42)]) (fun t => t.getV 0x1 == 0x42) = true := by decide
theorem test_V4_or : gives 0x200 0x8121 (withV [(0x1, 0x0F), (0x2, 0xF0), (0xF, 0x05)])
    (fun t => t.getV 0x1 == 0xFF && t.getV vf == 0x05) = true := by decide
theorem test_V5_and : gives 0x200 0x8122 (withV [(0x1, 0x3C), (0x2, 0x0F)])
    (fun t => t.getV 0x1 == 0x0C) = true := by decide
theorem test_V6_xor : gives 0x200 0x8123 (withV [(0x1, 0xAA), (0x2, 0xFF)])
    (fun t => t.getV 0x1 == 0x55 && t.getV 0x2 == 0xFF) = true := by decide
theorem test_S1_add : gives 0x200 0x8124 (withV [(0x1, 0xFF), (0x2, 0x01)])
    (fun t => t.getV 0x1 == 0x00 && t.getV vf == 0x01 && t.pc == 0x202) = true := by decide
theorem test_V10_add_vf : gives 0x200 0x8F14 (withV [(0xF, 0xFF), (0x1, 0x01)])
    (fun t => t.getV vf == 0x01) = true := by decide
theorem test_S2_sub : gives 0x200 0x8125 (withV [(0x1, 0x01), (0x2, 0x02)])
    (fun t => t.getV 0x1 == 0xFF && t.getV vf == 0x00) = true := by decide
theorem test_V14_sub_vf : gives 0x200 0x8F15 (withV [(0xF, 0x03), (0x1, 0x05)])
    (fun t => t.getV vf == 0x00) = true := by decide
theorem test_V15_subb : gives 0x200 0x8127 (withV [(0x1, 0x03), (0x2, 0x05)])
    (fun t => t.getV 0x1 == 0x02 && t.getV vf == 0x01) = true := by decide
theorem test_V16_subb : gives 0x200 0x8127 (withV [(0x1, 0x05), (0x2, 0x03)])
    (fun t => t.getV 0x1 == 0xFE && t.getV vf == 0x00) = true := by decide
theorem test_V19_shr : gives 0x200 0x8126 (withV [(0x1, 0x02), (0x2, 0xFF)])
    (fun t => t.getV 0x1 == 0x01 && t.getV vf == 0x00) = true := by decide
theorem test_V20_shr_vf : gives 0x200 0x8F06 (withV [(0xF, 0x02)]) (fun t => t.getV vf == 0x01) = true := by decide
theorem test_V23_shl : gives 0x200 0x810E (withV [(0x1, 0xFF)])
    (fun t => t.getV 0x1 == 0xFE && t.getV vf == 0x01) = true := by decide
theorem test_V24_shl_vf : gives 0x200 0x8F0E (withV [(0xF, 0x81)]) (fun t => t.getV vf == 0x02) = true := by decide
theorem test_V25_rand : gives 0x200 0xC30F { State.reset with rndIn := [0xB7#8] }
    (fun t => t.getV 0x3 == 0x07 && t.rndIn == []) = true := by decide
theorem test_V32_jump_odd : gives 0x200 0x1201 (withV []) (fun t => t.pc == 0x201) = true := by decide
theorem test_V33_call : gives 0x200 0x2300 (withV []) (fun t => t.pc == 0x300 && t.stack == [0x202]) = true := by
  decide
/-- V36: a bounded stack, here of depth 1. -/
theorem test_V36_call_full :
    faultsAs 0x400 0x2500 { State.reset with stack := [0x202], cfg := { configDefault with stackDepth := some 1 } }
      .stackOverflow = true := by decide
theorem test_V34_return : gives 0x300 0x00EE { State.reset with stack := [0x202] }
    (fun t => t.pc == 0x202 && t.stack == []) = true := by decide
theorem test_V35_return_empty : faultsAs 0x200 0x00EE (withV []) .stackUnderflow = true := by decide
theorem test_V40_jumpV0 : gives 0x200 0xBFF0 (withV [(0x0, 0x0F)]) (fun t => t.pc == 0xFFF) = true := by decide
theorem test_V39_jumpV0_overflow : faultsAs 0x200 0xBFF0 (withV [(0x0, 0x10)]) (.addressOverflow 0x1000) = true := by
  decide
theorem test_V41_eqNum : gives 0x210 0x3207 (withV [(0x2, 0x07)]) (fun t => t.pc == 0x214) = true := by decide
theorem test_V43_eqNum_overflow : faultsAs 0xFFC 0x3207 (withV [(0x2, 0x07)]) (.addressOverflow 0x1000) = true := by
  decide
theorem test_V46_neqNum : gives 0x210 0x4207 (withV [(0x2, 0x08)]) (fun t => t.pc == 0x214) = true := by decide
theorem test_V47_eq : gives 0x300 0x5120 (withV [(0x1, 0x33), (0x2, 0x33)]) (fun t => t.pc == 0x304) = true := by
  decide
theorem test_V49_neq : gives 0x300 0x9120 (withV [(0x1, 0x33), (0x2, 0x34)]) (fun t => t.pc == 0x304) = true := by
  decide
theorem test_V50_neq_same : gives 0x300 0x9110 (withV [(0x1, 0x33)]) (fun t => t.pc == 0x302) = true := by decide
theorem test_V51_keyEq : gives 0x220 0xE59E (withKey 0xA (withV [(0x5, 0x0A)])) (fun t => t.pc == 0x224) = true := by
  decide
theorem test_V53_keyEq_invalid : faultsAs 0x220 0xE59E (withV [(0x5, 0x10)]) (.invalidKey 0x10) = true := by decide
theorem test_V55_keyNeq : gives 0x220 0xE5A1 (withV [(0x5, 0x0A)]) (fun t => t.pc == 0x224) = true := by decide
theorem test_V54_keyNeq_priority : faultsAs 0xFFC 0xE5A1 (withV [(0x5, 0x10)]) (.invalidKey 0x10) = true := by decide
theorem test_V69_clear : gives 0x200 0x00E0 { State.reset with fb := Vector.replicate 32 (BitVec.allOnes 64) }
    (fun t => t.fb == Vector.replicate 32 0#64 && t.pc == 0x202) = true := by decide
/-- V60: the 14 pixels of glyph 0 at the top left corner; bit c of a row is column c. -/
theorem test_V60_draw : gives 0x200 0xD015 { State.reset with i := 0x050 }
    (fun t => t.fb.toList.take 6 == [0xF#64, 0x9#64, 0x9#64, 0x9#64, 0xF#64, 0x0#64] && t.getV vf == 0x00) = true := by
  decide
/-- V65 and V66 together: eight columns from column 60 of row 40, wrapped to columns 60–63 and 0–3 of row 8. -/
theorem test_V65_draw_wraps :
    gives 0x200 0xD011 { withV [(0x0, 0x3C), (0x1, 0x28)] with i := 0x300, mem := Memory.writeByte [] 0x300 0xFF }
      (fun t => t.fb[8] == 0xF00000000000000F#64 && t.fb[7] == 0#64) = true := by decide
theorem test_V70_getDelay : gives 0x200 0xF307 { State.reset with dt := 0x3C }
    (fun t => t.getV 0x3 == 0x3C && t.dt == 0x3C) = true := by decide
theorem test_V71_setDelay : gives 0x200 0xF215 (withV [(0x2, 0x05)]) (fun t => t.dt == 0x05) = true := by decide
theorem test_V72_setSound : gives 0x200 0xF218 (withV [(0x2, 0x02)])
    (fun t => t.st == 0x02 && soundActive t) = true := by decide
theorem test_V75_waitKey : gives 0x204 0xF10A (withKey 9 (withKey 3 (withV [])))
    (fun t => t.getV 0x1 == 0x03 && t.pc == 0x206) = true := by decide
theorem test_V76_waitKey_none : gives 0x204 0xF10A (withV []) (fun t => t.getV 0x1 == 0x00 && t.pc == 0x204) = true := by
  decide
theorem test_V80_setIdx : gives 0x200 0xA2F0 (withV []) (fun t => t.i == 0x2F0) = true := by decide
theorem test_V81_addIdx : gives 0x200 0xF41E { withV [(0x4, 0xFF)] with i := 0xF00 } (fun t => t.i == 0xFFF) = true := by
  decide
theorem test_V82_addIdx_overflow :
    faultsAs 0x200 0xF41E { withV [(0x4, 0xFF)] with i := 0xF01 } (.addressOverflow 0x1000) = true := by decide
theorem test_V84_setSprite : gives 0x200 0xF329 (withV [(0x3, 0x0F)]) (fun t => t.i == 0x09B) = true := by decide
theorem test_V86_setSprite_unmasked : gives 0x200 0xF329 (withV [(0x3, 0xFF)]) (fun t => t.i == 0x54B) = true := by
  decide
theorem test_V89_storeBcd : gives 0x200 0xF333 { withV [(0x3, 0x7B)] with i := 0xFFD }
    (fun t => bytesAt t.mem 0xFFD 3 == [0x01#8, 0x02#8, 0x03#8]) = true := by decide
theorem test_V90_storeBcd_bounds :
    faultsAs 0x200 0xF333 { withV [(0x3, 0x7B)] with i := 0xFFE } (.memoryOutOfBounds 0xFFE 3) = true := by decide
theorem test_V93_store : gives 0x200 0xF255 { withV [(0x0, 0x11), (0x1, 0x22), (0x2, 0x33), (0x3, 0x44)] with i := 0x400 }
    (fun t => bytesAt t.mem 0x400 4 == [0x11#8, 0x22#8, 0x33#8, 0x00#8] && t.i == 0x400) = true := by decide
theorem test_V92_store_bounds :
    faultsAs 0x200 0xFF55 { State.reset with i := 0xFF1 } (.memoryOutOfBounds 0xFF1 16) = true := by decide
theorem test_V94_load : gives 0x200 0xF265
    { withV [(0x3, 0x44)] with i := 0x400, mem := Memory.writeBytes [] 0x400 [0x11, 0x22, 0x33, 0x99] }
    (fun t => t.getV 0x0 == 0x11 && t.getV 0x1 == 0x22 && t.getV 0x2 == 0x33 && t.getV 0x3 == 0x44 &&
      t.i == 0x400) = true := by decide
theorem test_V96_load_bounds :
    faultsAs 0x200 0xF165 { State.reset with i := 0xFFF } (.memoryOutOfBounds 0xFFF 2) = true := by decide
/-- S4: a word that is no instruction. -/
theorem test_S4_illegal : faultsAs 0x200 0x0123 (withV []) (.illegalInstruction 0x0123) = true := by decide
/-- V104: the fetch increment faults before the decode. -/
theorem test_V104_fetch : faultsAs 0xFFE 0x00E0 (withV []) (.addressOverflow 0x1000) = true := by decide
theorem test_V105_fetch : faultsAs 0xFFF 0x00E0 (withV []) (.memoryOutOfBounds 0xFFF 2) = true := by decide
/-- V73 and S6: a tick on DT = 0 and ST = 3. -/
theorem test_V73_tick : step { State.reset with st := 0x03, inputs := [.tick60] } = .next { State.reset with st := 0x02 } := rfl
/-- V77: no tick acts on a Faulted core. -/
theorem test_V77_tick : (timerTick { State.reset with dt := 0x05, status := .faulted .stackUnderflow 0x200 }).dt = 0x05 := by
  decide

/-! ## Reset and the host's functions -/

/-- V109: the first step after construction with an empty ROM. -/
theorem test_V109_empty_rom :
    step State.reset = .next { State.reset with status := .faulted (.illegalInstruction 0x0000) 0x200 } := rfl
/-- V110: glyph 0 at 0x050. -/
theorem test_V110_font : bytesAt State.reset.mem 0x050 5 = [0xF0#8, 0x90#8, 0x90#8, 0x90#8, 0xF0#8] := by decide
theorem test_V108_rom_too_long :
    construct configDefault resetDefault (List.replicate 3585 0x00#8) = .error (.loadOverflow 3585) := by
  rw [construct, if_pos (by rw [List.length_replicate]; decide), List.length_replicate]
/-- R32: glyph F, the last five bytes of the font, and the byte after it. -/
theorem test_font_end :
    bytesAt State.reset.mem 0x09B 6 = [0xF0#8, 0x80#8, 0xF0#8, 0x80#8, 0x80#8, 0x00#8] := by decide
theorem test_reset_is_default_construction : construct configDefault resetDefault [] = .ok State.reset := by decide
theorem test_withFetchWord :
    step (State.reset.withFetchWord 16 0x6A2B) = exec (.setNum 0xA#4 0x2B#8)
      ((State.reset.withFetchWord 16 0x6A2B).setPc 0x202) := rfl

/-! ## States that meet the hypotheses of the statements

Each theorem shows values that meet all the hypotheses of one statement together, one for each of its clauses, at the
ends of their ranges where they have ends. -/

/-- Reset with another PC: what the execute phase of an instruction at pc − 2 starts from. -/
def atPc (pc : Addr) (s : State := State.reset) : State := { s with pc := pc }

/-- A state with the word 6A2B (SetNum) at the highest address that can be fetched from. -/
def lastFetch : State := placeAt 0xFFD 0x6A2B State.reset

/-- A state that is idle at the highest address that can be fetched from. -/
def lastIdle : State := placeAt 0xFFD 0x1FFD State.reset

/-- A state that waits for a key at that address. -/
def lastWait : State := placeAt 0xFFD 0xF10A State.reset

/-- A Faulted core. -/
def stopped : State := { State.reset with status := .faulted .stackUnderflow 0x200 }

theorem test_witness_AddressArithmeticIsCheckedNotWrapped :
    (0xFFE#12).toNat + 1 ≤ 0xFFF ∧ 0xFFF < (0xFFF#12).toNat + 1 ∧ 2 ≤ (0x002#12).toNat ∧ (0x001#12).toNat < 2 := by
  decide
theorem test_witness_MemoryPrimitivesReadAndWriteInBounds :
    (0xFFE#12).toNat + 2 - 1 ≤ 0xFFF ∧ (1 ≤ 2 ∧ 0xFFF < (0xFFF#12).toNat + 2 - 1) ∧ (0xFFE#12).toNat ≤ 0xFFE ∧
    (0xFFF#12).toNat = 0xFFF ∧ (0xFFF#12).toNat + [0x01#8].length - 1 ≤ 0xFFF ∧
    (1 ≤ [0x01#8, 0x02#8].length ∧ 0xFFF < (0xFFF#12).toNat + [0x01#8, 0x02#8].length - 1) := by decide
theorem test_witness_WrittenWordsAndBytesReadBack : (0xFFE#12).toNat ≤ 0xFFE ∧ (0xFFF#12).toNat = 0xFFF := by decide
theorem test_witness_EqualReadsMeanEqualMemories :
    ∃ m m' : Memory, m.wf ∧ m'.wf ∧ m ≠ [] ∧ ∀ a, m.readByte a = m'.readByte a :=
  ⟨[(0x200, 0x12#8)], [(0x200, 0x12#8)], by decide, by decide, by decide, fun _ => rfl⟩
theorem test_witness_EncodeOfDecodeIsTheWord : decode 0x81F6#16 = .ok (.shr 0x1#4 0xF#4) := by decide
theorem test_witness_IllegalWordsAreExactlyTheListedOnes : decode 0xFFFF#16 = .error (.groupF 0xFFFF#16) := by decide
theorem test_witness_StepRunsTheDecodedInstruction :
    lastFetch.status = .running ∧ lastFetch.inputs = [] ∧ lastFetch.pc.toNat ≤ 0xFFD ∧
    decode (lastFetch.mem.readByte lastFetch.pc.toNat ++ lastFetch.mem.readByte (lastFetch.pc.toNat + 1)) =
      .ok (.setNum 0xA#4 0x2B#8) := by decide
/-- The same with `step` first in store. -/
theorem test_witness_StepRunsTheDecodedInstruction_strobe :
    { lastFetch with inputs := [.step, .tick60] }.inputs = .step :: [.tick60] ∧
    { lastFetch with inputs := [.step, .tick60] }.status = .running := by decide
theorem test_witness_StepFaultsWhereNothingCanBeFetchedOrDecoded :
    (atPc 0xFFF).status = .running ∧ (atPc 0xFFF).inputs = [] ∧ (atPc 0xFFF).pc = 0xFFF#12 ∧
    (atPc 0xFFE).pc = 0xFFE#12 ∧ (atPc 0xFFD).pc.toNat ≤ 0xFFD ∧
    decode ((atPc 0xFFD).mem.readByte 0xFFD ++ (atPc 0xFFD).mem.readByte 0xFFE) = .error (.group0 0x0000#16) := by decide
theorem test_witness_StepPerformsTheHostsNextEvent :
    { State.reset with inputs := [.tick60] }.inputs = .tick60 :: [] ∧
    { State.reset with inputs := [.keySet 15 true] }.inputs = .keySet 15 true :: [] ∧
    { State.reset with inputs := [.keySet 16 true] }.inputs = .keySet 16 true :: [] ∧
    State.reset.status = .running := by decide
theorem test_witness_FaultedCoreTakesNoEvent : stopped.status = .faulted .stackUnderflow 0x200 := by decide
theorem test_witness_FaultingStepChangesOnlyTheStatus :
    ∃ t, step State.reset = .next t ∧ t.status ≠ .running := ⟨_, rfl, by decide⟩
/-- One fault of each kind the execute phase can raise, at the nearest value to the limit. -/
theorem test_witness_ExecutePhaseFaultsExactlyWhereListed :
    FaultsWith (.eqNum 0x0#4 0x00#8) (atPc 0xFFE) (.addressOverflow 0x1000) ∧
    FaultsWith .ret State.reset .stackUnderflow ∧
    FaultsWith (.call 0x300#12) { State.reset with cfg := { configDefault with stackDepth := some 0 } } .stackOverflow ∧
    FaultsWith (.keyEq 0x5#4) (withV [(0x5, 0x10)]) (.invalidKey 0x10) ∧
    FaultsWith (.storeBcd 0x0#4) { State.reset with i := 0xFFE } (.memoryOutOfBounds 0xFFE 3) := by
  unfold FaultsWith InBounds; decide
/-- An instruction that raises none, with PC = A + 2 at its least. -/
theorem test_witness_ExecutePhaseFaultsExactlyWhereListed_none :
    2 ≤ (atPc 0x002).pc.toNat ∧ ∀ e, ¬ FaultsWith (.waitKey 0x1#4) (atPc 0x002) e := ⟨by decide, fun _ h => h⟩
theorem test_witness_EveryStepKeepsTheInvariant : lastFetch.Inv ∧ ∃ t, step lastFetch = .next t :=
  ⟨by decide, _, rfl⟩
theorem test_witness_NoStepChangesTheParameters : ∃ t, step lastFetch = .next t := ⟨_, rfl⟩
theorem test_witness_RegistersHaveOnlyTheirListedWriters :
    ∃ t, exec (.setNum 0xF#4 0x01#8) State.reset = .next t ∧ t.getV 0xF#4 ≠ State.reset.getV 0xF#4 :=
  ⟨_, rfl, by decide⟩
theorem test_witness_MemoryHasOnlyItsListedWriters :
    ∃ t, exec (.store 0x0#4) { withV [(0x0, 0x11)] with i := 0xFFF } = .next t ∧
      t.mem.readByte 0xFFF ≠ State.reset.mem.readByte 0xFFF := ⟨_, rfl, by decide⟩
theorem test_witness_ScreenIsChangedByDrawAndClearAlone :
    ∃ t, exec (.draw 0x0#4 0x0#4 0x1#4) { State.reset with i := 0x050 } = .next t ∧ t.fb ≠ State.reset.fb :=
  ⟨_, rfl, by decide⟩
theorem test_witness_StackIndexAndTimersHaveOnlyTheirListedWriters :
    (∃ t, exec (.call 0x300#12) State.reset = .next t ∧ t.stack ≠ State.reset.stack) ∧
    (∃ t, exec (.setIdx 0xFFF#12) State.reset = .next t ∧ t.i ≠ State.reset.i) ∧
    (∃ t, exec (.setDelay 0x2#4) (withV [(0x2, 0x05)]) = .next t ∧ t.dt ≠ (withV [(0x2, 0x05)]).dt) ∧
    (∃ t, exec (.setSound 0x2#4) (withV [(0x2, 0x05)]) = .next t ∧ t.st ≠ (withV [(0x2, 0x05)]).st) :=
  ⟨⟨_, rfl, by decide⟩, ⟨_, rfl, by decide⟩, ⟨_, rfl, by decide⟩, ⟨_, rfl, by decide⟩⟩
theorem test_witness_KeysAreChangedByTheHostAndReadByThreeInstructions :
    (∃ t, step { State.reset with inputs := [.keySet 0 true] } = .next t ∧ t.keys ≠ State.reset.keys) ∧
    (∀ x, Instr.clear ≠ .keyEq x) ∧ (∀ x, Instr.clear ≠ .keyNeq x) ∧ (∀ x, Instr.clear ≠ .waitKey x) :=
  ⟨⟨_, rfl, by decide⟩, by decide, by decide, by decide⟩
/-- The five operations with a flag: a destination other than VF, and VF under either order. -/
theorem test_witness_WritesResultAndFlag :
    (0x1#4 : RegIdx) ≠ vf ∧ (0xF#4 : RegIdx) = vf ∧ destOrder State.reset.cfg .add = .flagLast ∧
    destOrder State.reset.cfg .shr = .resultLast := by decide
theorem test_witness_RandMasksAFreshByte :
    { State.reset with rndIn := [0xB7#8] }.rndIn = 0xB7#8 :: [] ∧ State.reset.rndIn = [] := by decide
theorem test_witness_CallPushesTheReturnAddress :
    State.reset.cfg.stackDepth ≠ some State.reset.stack.length ∧
    { configDefault with stackDepth := some 16 }.stackDepth = some (List.replicate 16 0x202#12).length := by decide
theorem test_witness_ReturnPopsTheStackIntoPc :
    { State.reset with stack := [0x202] }.stack = 0x202#12 :: [] ∧ State.reset.stack = [] := by decide
theorem test_witness_ReturnUndoesCall :
    ∃ t u : State, State.reset.cfg.stackDepth ≠ some State.reset.stack.length ∧
      exec (.call 0x300#12) State.reset = .next t ∧ u.stack = t.stack :=
  ⟨_, { State.reset with pc := 0x302, stack := [0x200] }, by decide, rfl, rfl⟩
theorem test_witness_JumpV0AddsV0WithoutWrapping :
    (0xFF0#12).toNat + ((withV [(0x0, 0x0F)]).getV 0x0#4).toNat ≤ 0xFFF ∧
    0xFFF < (0xFF0#12).toNat + ((withV [(0x0, 0x10)]).getV 0x0#4).toNat := by decide
theorem test_witness_ComparisonSkipsFollowTheirConditions :
    (((atPc 0xFFD).getV 0x2#4).toNat = (0x00#8).toNat ∧ (atPc 0xFFD).pc.toNat ≤ 0xFFD) ∧
    ¬ ((atPc 0xFFD).getV 0x2#4).toNat = (0x07#8).toNat ∧
    (((atPc 0xFFE).getV 0x2#4).toNat = (0x00#8).toNat ∧ 0xFFD < (atPc 0xFFE).pc.toNat) := by decide
theorem test_witness_KeySkipsFollowTheNamedKey :
    ((withKey 15 (withV [(0x5, 0x0F)])).getV 0x5#4).toNat < 16 ∧
    (withKey 15 (withV [(0x5, 0x0F)])).keys[15] = true ∧ (withV [(0x5, 0x0F)]).keys[15] = false := by decide
theorem test_witness_KeySkipsFaultOnAnInvalidKey : 0xF < ((withV [(0x5, 0x10)]).getV 0x5#4).toNat := by decide
theorem test_witness_ScreenDrawXorsTheSpriteAndDetectsCollision :
    (List.replicate 15 0xFF#8).length ≤ 32 ∧ (List.replicate 32 0xFF#8).length ≤ 32 ∧ (63 < 64 ∧ 31 < 32) := by decide
theorem test_witness_DrawingTwiceRestoresTheScreen : (List.replicate 15 0xFF#8).length ≤ 32 := by decide
theorem test_witness_DrawXorsTheBytesAtIAndWritesCollision :
    InBounds { State.reset with i := 0xFF1 } 15 ∧ InBounds { State.reset with i := 0xFFF } 0 ∧
    ¬ InBounds { State.reset with i := 0xFF2 } 15 := by unfold InBounds; decide
theorem test_witness_WaitKeyStoresAPressedKey :
    ∃ j, ∃ h : j < 16, (withKey 15 State.reset).keys[j] = true := ⟨15, by decide, by decide⟩

/-- Keys 3 and 9 pressed, and a table whose second entry is the one for them and names the key p. -/
def withPick (p : Key) : State :=
  { withKey 9 (withKey 3 State.reset) with
    cfg := { configDefault with waitKeyPick :=
      [((withKey 3 State.reset).keys, 0x3#4), ((withKey 9 (withKey 3 State.reset)).keys, p)] } }

/-- The clause of the table: an entry that is not the first of the table and names a pressed key. -/
theorem test_witness_WaitKeyStoresAPressedKey_table :
    PickEntry (withPick 0x9#4) 0x9#4 ∧ (withPick 0x9#4).key 0x9#4 = true ∧ (withPick 0x9#4).key 0x3#4 = true :=
  ⟨⟨[((withKey 3 State.reset).keys, 0x3#4)], [], rfl, by decide⟩, by decide, by decide⟩
/-- The clause of the lowest key: an entry that names a key not pressed, and a table with no entry. -/
theorem test_witness_WaitKeyStoresAPressedKey_lowest :
    (∀ p, PickEntry (withPick 0x5#4) p → (withPick 0x5#4).key p = false) ∧
    (∀ p, PickEntry (withKey 15 State.reset) p → (withKey 15 State.reset).key p = false) := by
  refine ⟨fun p h => ?_, fun p h => ?_⟩
  · have : some p = some 0x5#4 := (lookupPick_eq_some_iff.2 h).symm.trans (by decide)
    cases this; decide
  · have : some p = none := (lookupPick_eq_some_iff.2 h).symm.trans (by decide)
    cases this
/-- D13: the entry's key 9, and the lowest pressed key 3 where the entry's key 5 is not pressed. -/
theorem test_waitKey_table : gives 0x204 0xF10A (withPick 0x9#4) (fun t => t.getV 0x1 == 0x09) = true ∧
    gives 0x204 0xF10A (withPick 0x5#4) (fun t => t.getV 0x1 == 0x03) = true := by decide
theorem test_witness_WaitKeyWithoutAKeyRewindsPc :
    (∀ j (h : j < 16), (atPc 0x002).keys[j] = false) ∧ 2 ≤ (atPc 0x002).pc.toNat := by decide
theorem test_witness_WaitingCoreStepsToItself :
    lastWait.status = .running ∧ lastWait.inputs = [] ∧ (∀ j (h : j < 16), lastWait.keys[j] = false) ∧
    lastWait.pc.toNat ≤ 0xFFD ∧
    decode (lastWait.mem.readByte lastWait.pc.toNat ++ lastWait.mem.readByte (lastWait.pc.toNat + 1)) =
      .ok (.waitKey 0x1#4) := by decide
theorem test_witness_TimerTickDecrementsBothTimersToZero : State.reset.status = .running := by decide
theorem test_witness_SetKeyPressedSetsOneFlag : State.reset.status = .running ∧ 15 < 16 := by decide
theorem test_witness_OutputsShowTheState :
    (63 < 64 ∧ 31 < 32) ∧ State.reset.status = .running ∧ stopped.status = .faulted .stackUnderflow 0x200 ∧
    { stopped with status := .faulted (.illegalInstruction 0x0123) 0x200 }.status =
      .faulted (.illegalInstruction 0x0123) 0x200 ∧
    { stopped with status := .faulted (.memoryOutOfBounds 0xFFF 2) 0xFFF }.status =
      .faulted (.memoryOutOfBounds 0xFFF 2) 0xFFF ∧
    { stopped with status := .faulted (.addressOverflow 0x1000) 0xFFE }.status =
      .faulted (.addressOverflow 0x1000) 0xFFE ∧
    { stopped with status := .faulted .stackOverflow 0x400 }.status = .faulted .stackOverflow 0x400 ∧
    { stopped with status := .faulted (.invalidKey 0x10) 0x220 }.status = .faulted (.invalidKey 0x10) 0x220 := by decide
theorem test_witness_AddIdxAddsWithoutWrapping :
    { withV [(0x4, 0xFF)] with i := 0xF00 }.i.toNat + ((withV [(0x4, 0xFF)]).getV 0x4#4).toNat ≤ 0xFFF ∧
    0xFFF < { withV [(0x4, 0xFF)] with i := 0xF01 }.i.toNat + ((withV [(0x4, 0xFF)]).getV 0x4#4).toNat := by decide
theorem test_witness_StoreBcdWritesTheThreeDecimalDigits :
    InBounds { State.reset with i := 0xFFD } 3 ∧ ¬ InBounds { State.reset with i := 0xFFE } 3 := by
  unfold InBounds; decide
/-- Store and Load alike. -/
theorem test_witness_StoreAndLoadUpToVx :
    InBounds { State.reset with i := 0xFF0 } ((0xF#4).toNat + 1) ∧
    ¬ InBounds { State.reset with i := 0xFF1 } ((0xF#4).toNat + 1) := by unfold InBounds; decide
theorem test_witness_StoredBytesAreFetchedNext :
    ∃ t, 1 ≤ (0x2#4).toNat ∧ { State.reset with i := 0xFFD }.i.toNat + (0x2#4).toNat ≤ 0xFFF ∧
      { State.reset with i := 0xFFD }.i.toNat ≤ 0xFFD ∧
      exec (.store 0x2#4) { State.reset with i := 0xFFD } = .next t := ⟨_, by decide, by decide, by decide, rfl⟩
/-- Addresses outside the font at their ends. -/
theorem test_witness_ResetIsDefaultConstruction :
    (0x04F < 0x1000 ∧ (0x04F < 0x050 ∨ 0x0A0 ≤ 0x04F)) ∧ (0xFFF < 0x1000 ∧ (0xFFF < 0x050 ∨ 0x0A0 ≤ 0xFFF)) := by decide
/-- ROMs of 0 and 3584 bytes and one too long; addresses outside font and ROM at their ends. -/
theorem test_witness_ConstructLoadsFontAndRomOrRejects :
    ([] : List Byte).length ≤ 3584 ∧ (List.replicate 3584 0x12#8).length ≤ 3584 ∧
    3584 < (List.replicate 3585 0x12#8).length ∧ (0x04F < 0x1000 ∧ (0x04F < 0x050 ∨ 0x0A0 ≤ 0x04F) ∧ 0x04F < 0x200) ∧
    (0x0A0 < 0x1000 ∧ (0x0A0 < 0x050 ∨ 0x0A0 ≤ 0x0A0) ∧ 0x0A0 < 0x200) ∧
    (0xFFF < 0x1000 ∧ 0x0A0 ≤ 0xFFF ∧ 0x200 + ([] : List Byte).length ≤ 0xFFF) := by
  simp only [List.length_replicate]; decide
/-- The idle state of both statements about idle cores. -/
theorem test_witness_IdleCore : lastIdle.IdleAt 0xFFD ∧ lastIdle.inputs = [] := by
  refine ⟨⟨by decide, by decide, by decide, by decide⟩, by decide⟩

end Sys2Proof.Tests
end

section
/-! Proofs of the statements about the primitives of 00_scope.md: the memory accesses (R12) and the checked
address arithmetic (R13).  Each clause is one law of Laws/Ops.lean or Laws/Memory.lean. -/

namespace Sys2Proof.Proofs

open Sys2Proof.Machine

/-- Settles O2: each bounds clause is the law of its access, and a write's effect is read off `writeBytes`,
inside and outside the range written. -/
theorem memoryPrimitivesReadAndWriteInBounds : Obligations.MemoryPrimitivesReadAndWriteInBounds := by
  intro m a n bs
  refine ⟨memRead_ok, memRead_error, fun h => ⟨_, memRead16_ok h, ?bigEndian⟩, memRead16_error,
    fun h => ⟨_, memWrite_ok h, ?inside, ?outside⟩, memWrite_error⟩
  case bigEndian => exact toNat_append ..
  case inside => exact fun k hk => Memory.readByte_writeBytes_inside m a.toNat k hk
  case outside => exact fun _ hb => Memory.readByte_writeBytes_outside m hb

/-- Settles O1: a result in 0x000–0xFFF is its own 12-bit value, so nothing wraps; any other result is the fault. -/
theorem addressArithmeticIsCheckedNotWrapped : Obligations.AddressArithmeticIsCheckedNotWrapped := by
  intro a k
  refine ⟨fun h => ⟨_, addrAdd_ok h, toNat_addrOfNat h⟩, addrAdd_error,
    fun h => ⟨_, addrSub_ok h, ?_⟩, addrSub_error⟩
  have hdiff : a.toNat - k ≤ 0xFFF := by omega
  rw [toNat_addrOfNat hdiff, Nat.sub_add_cancel h]

end Sys2Proof.Proofs
end

section
/-! Which instructions change the frame buffer FB, and how the host sees it (10_state.md R35). -/

namespace Sys2Proof.Proofs

open Sys2Proof.Machine

/-! ## Keeping one observation of the state -/

/-- Whatever next state the result r answers, `f` reads there what it reads in s. -/
def Keeps {α : Type} (f : State → α) (s : State) (r : Result) : Prop := ∀ t, r = .next t → f t = f s

theorem Keeps.next {α : Type} {f : State → α} {s t : State} (h : f t = f s) : Keeps f s (.next t) := by
  rintro _ ⟨⟩; exact h

theorem Keeps.attempt {α β : Type} {f : State → α} {s : State} {r : Except FaultInfo β} {k : β → State}
    (hraise : ∀ e, f (s.raise e) = f s) (hk : ∀ b, f (k b) = f s) : Keeps f s (s.attempt r k) := by
  intro t h
  rcases State.attempt_cases h with ⟨b, _, rfl⟩ | ⟨e, _, rfl⟩
  · exact hk b
  · exact hraise e

theorem Keeps.skipIf {α : Type} {f : State → α} {s : State} (hraise : ∀ e, f (s.raise e) = f s)
    (hpc : ∀ a, f (s.setPc a) = f s) (c : Bool) : Keeps f s (s.skipIf c) := by
  intro t h
  rcases State.skipIf_cases h with rfl | ⟨a, rfl⟩ | rfl
  · rfl
  · exact hpc a
  · exact hraise _

/-! ## The frame buffer under the shared operations and the host's events -/

@[simp] theorem writeRF_fb (s : State) (op : FlagOp) (x : RegIdx) (r : Byte) (f : Bool) :
    (s.writeRF op x r f).fb = s.fb := by rw [State.writeRF_eq]

@[simp] theorem setVFrom_fb (s : State) (k : Nat) (bs : List Byte) : (s.setVFrom k bs).fb = s.fb := by
  rw [State.setVFrom_eq]

@[simp] theorem drawRnd_fb (s : State) : s.drawRnd.2.fb = s.fb := by rw [State.drawRnd_eq]

@[simp] theorem timerTick_fb (s : State) : (timerTick s).fb = s.fb := by unfold timerTick; split <;> rfl

@[simp] theorem setKeyPressed_fb (k : Nat) (b : Bool) (s : State) : (setKeyPressed k b s).fb = s.fb := by
  unfold setKeyPressed
  split
  · split <;> rfl
  · rfl

/-- On the screen no coordinate is reduced. -/
theorem pixel_eq_getLsbD (fb : Screen) {c r : Nat} (hc : c < 64) (hr : r < 32) :
    pixel fb c r = (fb[r]).getLsbD c := by
  simp only [pixel, Nat.mod_eq_of_lt hc, Nat.mod_eq_of_lt hr]

/-! ## The frame buffer under an instruction -/

theorem skipIf_keeps_fb (s : State) (c : Bool) : Keeps State.fb s (s.skipIf c) :=
  .skipIf (fun _ => rfl) (fun _ => rfl) c

/-- Every instruction but Clear and Draw keeps the frame buffer, whether it completes or faults. -/
theorem exec_keeps_fb {i : Instr} (hclear : i ≠ .clear) (hdraw : ∀ x y n, i ≠ .draw x y n) (s : State) :
    Keeps State.fb s (exec i s) := by
  cases i with
  | clear => exact absurd rfl hclear
  | draw x y n => exact absurd rfl (hdraw x y n)
  | jump | setNum | addNum | set | or | and | xor | getDelay | setIdx | setDelay | setSound => exact .next rfl
  | add | sub | subb | shr | shl => exact .next (writeRF_fb ..)
  | rand => exact .next (drawRnd_fb s)
  | eqNum | neqNum | eq | neq => exact skipIf_keeps_fb s _
  | jumpV0 | addIdx | setSprite | storeBcd | store => exact .attempt (fun _ => rfl) fun _ => rfl
  | load => exact .attempt (fun _ => rfl) fun _ => setVFrom_fb ..
  | call | ret =>
    simp only [exec, execCall, execReturn]
    split <;> exact .next rfl
  | keyEq | keyNeq =>
    simp only [exec, execKeyEq, execKeyNeq]
    split
    · exact skipIf_keeps_fb s _
    · exact .next rfl
  | waitKey =>
    simp only [exec, execWaitKey]
    split
    · exact .next rfl
    · exact .attempt (fun _ => rfl) fun _ => rfl

/-- Settles O21: an instruction that is neither Clear nor Draw keeps the frame buffer, and neither event of the
host writes it. -/
theorem screenIsChangedByDrawAndClearAlone : Obligations.ScreenIsChangedByDrawAndClearAlone := by
  refine ⟨fun i s t h hne => ?writers, fun s k b => ⟨timerTick_fb s, setKeyPressed_fb k b s⟩,
    fun s _ _ hc hr => pixel_eq_getLsbD s.fb hc hr⟩
  case writers =>
    by_contra hnot
    obtain ⟨hclear, hdraw⟩ := not_or.1 hnot
    exact hne (exec_keeps_fb hclear (fun x y n e => hdraw ⟨x, y, n, e⟩) s t h)

end Sys2Proof.Proofs
end

section
/-! Decoding of one word by the opcode map (30_encoding.md R77, R79, R83). -/

namespace Sys2Proof.Proofs

/-- A word's instruction is read off the first row of the opcode map that it fits (R77). -/
theorem decode_eq_ok_of_find? {w : InstrWord} {r : Row} (h : opcodeTable.find? (·.fits w) = some r) :
    decode w = .ok (r.build w) := by
  rw [decode, h]

/-- A word that fits no row of the opcode map is rejected under its group's name (R79). -/
theorem decode_eq_error_of_fits_none {w : InstrWord} (h : ∀ r ∈ opcodeTable, r.fits w = false) :
    decode w = .error (rejectOf w) := by
  have hnone : opcodeTable.find? (·.fits w) = none :=
    List.find?_eq_none.2 fun r hr => by simp [h r hr]
  rw [decode, hnone]

/-- Settles O7: three of the words first fit the rows of Clear, Jump and StoreBcd, whose operand fields are then
read; the fourth is in group 0 and fits no row. -/
theorem sourceDecodeExamplesHold : Obligations.SourceDecodeExamplesHold := by
  refine ⟨?clear, ?jump, ?storeBcd, ?noInstruction⟩
  case clear => exact decode_eq_ok_of_find? (r := rowZ 0xE 0x0 .clear) rfl
  case jump => exact decode_eq_ok_of_find? (r := rowA 0x1 .jump) rfl
  case storeBcd => exact decode_eq_ok_of_find? (r := rowXF 0xF 0x3 0x3 .storeBcd) rfl
  case noInstruction => exact decode_eq_error_of_fits_none (by decide)

end Sys2Proof.Proofs
end

section
/-! The arithmetic instructions that write a result and a flag (40_alu.md R100, R107, R108, R110): what their words
decode to, and what the execute phase leaves in Vx, in VF and everywhere else. -/

namespace Sys2Proof.Proofs

open Sys2Proof.Machine Sys2Proof.Claims

/-! ## Words of two registers and a function nibble -/

/-- Such a word fits a row nibble by nibble. -/
@[simp] theorem fits_wordXY (row : Row) (op x y n : Nibble) : row.fits (op ++ x ++ y ++ n) =
    (op == row.n3 && nibbleFits row.n2 x && nibbleFits row.n1 y && nibbleFits row.n0 n) := by
  simp [Row.fits]

/-- The first row that fits such a word, when it has format XY, gives the instruction of the word's own registers. -/
theorem decode_wordXY {op x y n : Nibble} {f : RegIdx → RegIdx → Instr}
    (h : opcodeTable.find? (·.fits (op ++ x ++ y ++ n)) = some (rowXY op n f)) :
    decode (op ++ x ++ y ++ n) = .ok (f x y) := by
  simp [decode_eq_ok_of_find? h, rowXY]

theorem decode_add (x y : RegIdx) : decode (0x8#4 ++ x ++ y ++ 0x4#4) = .ok (.add x y) :=
  decode_wordXY (by simp only [fits_wordXY]; rfl)

theorem decode_sub (x y : RegIdx) : decode (0x8#4 ++ x ++ y ++ 0x5#4) = .ok (.sub x y) :=
  decode_wordXY (by simp only [fits_wordXY]; rfl)

theorem decode_subb (x y : RegIdx) : decode (0x8#4 ++ x ++ y ++ 0x7#4) = .ok (.subb x y) :=
  decode_wordXY (by simp only [fits_wordXY]; rfl)

/-! ## A register write and its frame -/

/-- A state that differs from s in general registers alone meets every other clause of the frame. -/
theorem frame_of_v {s t : State} {regs : RegIdx → Prop} (h : t = { s with v := t.v })
    (hregs : ∀ q, ¬ regs q → t.getV q = s.getV q) : Frame s t regs [] noByte := by
  rw [h]
  exact { regs := hregs, mem := fun _ _ => rfl, pc := fun _ => rfl, i := fun _ => rfl, stack := fun _ => rfl,
          dt := fun _ => rfl, st := fun _ => rfl, fb := fun _ => rfl, rnd := fun _ => ⟨rfl, rfl⟩,
          keys := rfl, status := rfl, cfg := rfl, inputs := rfl }

/-- `WriteRF` leaves every register but Vx and VF alone, and all the other state. -/
theorem frame_writeRF (s : State) (op : FlagOp) (x : RegIdx) (r : Byte) (f : Bool) :
    Frame s (s.writeRF op x r f) (fun q => q = x ∨ q = vf) [] noByte := by
  refine frame_of_v (s.writeRF_eq op x r f) fun q hq => ?_
  obtain ⟨hx, hvf⟩ := not_or.1 hq
  rw [State.getV_writeRF]
  cases destOrder s.cfg op <;> simp [hx, hvf]

/-- An instruction whose meaning is one `WriteRF` of r and f writes that result and that flag (R100). -/
theorem writesResultAndFlag_of_exec {i : Instr} {s : State} {op : FlagOp} {x : RegIdx} {r : Byte} {f : Bool}
    (h : exec i s = .next (s.writeRF op x r f)) : WritesResultAndFlag i s op x r.toNat f.toNat := by
  refine ⟨_, h, fun hx => ?apart, fun hx => ?same, frame_writeRF s op x r f⟩
  case apart =>
    have hvf : vf ≠ x := hx.symm
    simp only [State.getV_writeRF]
    cases destOrder s.cfg op <;> simp [hx, hvf, toNat_flagByte]
  case same =>
    simp only [State.getV_writeRF, hx]
    cases destOrder s.cfg op <;> simp [toNat_flagByte]

/-! ## Results and flags as numbers -/

/-- A difference of bytes is the difference mod 256. -/
theorem toNat_byte_sub (a b : Byte) : (a - b).toNat = (a.toNat + 256 - b.toNat) % 256 := by
  have := b.isLt
  rw [BitVec.toNat_sub]; omega

theorem toNat_carryOut (a b : Byte) : (carryOut a b).toNat = if 0xFF < a.toNat + b.toNat then 1 else 0 :=
  Bool.cond_decide ..

theorem toNat_noBorrow (a b : Byte) : (noBorrow a b).toNat = if b.toNat ≤ a.toNat then 1 else 0 :=
  Bool.cond_decide ..

/-! ## The three instructions -/

/-- Settles O27: Add is one `WriteRF` of the byte sum and the carry. -/
theorem addWritesSumAndCarry : Obligations.AddWritesSumAndCarry := by
  intro x y s
  refine ⟨decode_add x y, ?_⟩
  rw [← toNat_carryOut, ← BitVec.toNat_add]
  exact writesResultAndFlag_of_exec rfl

/-- Settles O28: Sub is one `WriteRF` of the byte difference Vx − Vy and its no-borrow flag. -/
theorem subWritesDifferenceAndNoBorrow : Obligations.SubWritesDifferenceAndNoBorrow := by
  intro x y s
  refine ⟨decode_sub x y, ?_⟩
  rw [← toNat_noBorrow, ← toNat_byte_sub]
  exact writesResultAndFlag_of_exec rfl

/-- Settles O29: Subb is Sub's `WriteRF` with the operands exchanged, its result still written to Vx. -/
theorem subbWritesReversedDifferenceAndNoBorrow : Obligations.SubbWritesReversedDifferenceAndNoBorrow := by
  intro x y s
  refine ⟨decode_subb x y, ?_⟩
  rw [← toNat_noBorrow, ← toNat_byte_sub]
  exact writesResultAndFlag_of_exec rfl

end Sys2Proof.Proofs
end

section
/-! Control transfer (41_control_flow.md R121, R123, R124): what Jump, Return and JumpV0 leave in PC and on the
stack, where the last two fault, and that nothing else changes. -/

namespace Sys2Proof.Proofs

open Sys2Proof.Machine Sys2Proof.Claims

/-! ## Words of an address -/

/-- The first row that fits such a word, when it has format A, gives the instruction of the word's own address. -/
theorem decode_wordA {op : Nibble} {nnn : Addr} {f : Addr → Instr}
    (h : opcodeTable.find? (·.fits (op ++ nnn)) = some (rowA op f)) : decode (op ++ nnn) = .ok (f nnn) := by
  simp [decode_eq_ok_of_find? h, rowA]

/-- Format A fixes the group nibble alone, so the search of the opcode map turns on that nibble. -/
theorem fits_wordA (row : Row) (op : Nibble) (nnn : Addr) : row.fits (op ++ nnn) =
    (op == row.n3 && nibbleFits row.n2 (fieldX (op ++ nnn)) && nibbleFits row.n1 (fieldY (op ++ nnn)) &&
      nibbleFits row.n0 (fieldN (op ++ nnn))) := by
  rw [Row.fits, fieldOp_wordA]

theorem decode_jump (nnn : Addr) : decode (0x1#4 ++ nnn) = .ok (.jump nnn) :=
  decode_wordA (by simp only [fits_wordA]; rfl)

theorem decode_jumpV0 (nnn : Addr) : decode (0xB#4 ++ nnn) = .ok (.jumpV0 nnn) :=
  decode_wordA (by simp only [fits_wordA]; rfl)

theorem decode_ret : decode 0x00EE#16 = .ok .ret :=
  decode_eq_ok_of_find? (r := rowZ 0xE 0xE .ret) rfl

/-! ## The frame of a control transfer, and its fault -/

/-- New values of PC and of the stack meet every clause of a frame that lists PC, and the stack if it changes. -/
theorem frame_pc_stack (s : State) (a : Addr) (stk : List Addr) {parts : List Part} (hpc : Part.pc ∈ parts)
    (hstack : Part.stack ∉ parts → stk = s.stack) :
    Frame s { s with pc := a, stack := stk } noReg parts noByte :=
  { regs := fun _ _ => rfl, mem := fun _ _ => rfl, pc := (absurd hpc ·), i := fun _ => rfl, stack := hstack,
    dt := fun _ => rfl, st := fun _ => rfl, fb := fun _ => rfl, rnd := fun _ => ⟨rfl, rfl⟩,
    keys := rfl, status := rfl, cfg := rfl, inputs := rfl }

theorem frame_setPc (s : State) (a : Addr) : Frame s (s.setPc a) noReg [.pc] noByte :=
  frame_pc_stack s a s.stack List.mem_cons_self fun _ => rfl

/-- The model's raised fault is the state that the statements call faulted (R172). -/
theorem raise_eq_faulted (s : State) (e : FaultInfo) : s.raise e = faulted s e := rfl

/-! ## The execute phase of Return and JumpV0 -/

theorem exec_ret_of_cons {s : State} {a : Addr} {rest : List Addr} (h : s.stack = a :: rest) :
    exec .ret s = .next { s with pc := a, stack := rest } := by
  simp only [exec, execReturn, h]

theorem exec_ret_of_nil {s : State} (h : s.stack = []) : exec .ret s = .next (faulted s .stackUnderflow) := by
  simp only [exec, execReturn, h, raise_eq_faulted]

theorem exec_jumpV0_of_le {nnn : Addr} {s : State} (h : nnn.toNat + (s.getV 0x0#4).toNat ≤ 0xFFF) :
    exec (.jumpV0 nnn) s = .next (s.setPc (BitVec.ofNat 12 (nnn.toNat + (s.getV 0x0#4).toNat))) := by
  simp only [exec, execJumpV0, addrAdd_ok h, State.attempt_ok]

theorem exec_jumpV0_of_gt {nnn : Addr} {s : State} (h : 0xFFF < nnn.toNat + (s.getV 0x0#4).toNat) :
    exec (.jumpV0 nnn) s =
      .next (faulted s (.addressOverflow (nnn.toNat + (s.getV 0x0#4).toNat : Nat))) := by
  simp only [exec, execJumpV0, addrAdd_error h, State.attempt_error, raise_eq_faulted]

/-! ## The three instructions -/

/-- Settles O34: the two forms of the stack are the two cases of Return. -/
theorem returnPopsTheStackIntoPc : Obligations.ReturnPopsTheStackIntoPc := by
  refine fun s => ⟨decode_ret, fun a rest h => ?pops, exec_ret_of_nil⟩
  case pops =>
    exact ⟨_, exec_ret_of_cons h, rfl, rfl, frame_pc_stack s a rest (by simp) (by simp)⟩

/-- Settles O36: JumpV0 is one `AddrAdd`, and a sum in 0x000–0xFFF is its own 12-bit value. -/
theorem jumpV0AddsV0WithoutWrapping : Obligations.JumpV0AddsV0WithoutWrapping := by
  refine fun nnn s => ⟨decode_jumpV0 nnn, fun h => ?inRange, exec_jumpV0_of_gt⟩
  case inRange => exact ⟨_, exec_jumpV0_of_le h, toNat_addrOfNat h, frame_setPc s _⟩

/-- Settles O32: Jump is one write of PC, with no operation that may fault. -/
theorem jumpWritesOnlyPc : Obligations.JumpWritesOnlyPc :=
  fun nnn s => ⟨decode_jump nnn, _, rfl, rfl, frame_setPc s nnn⟩

end Sys2Proof.Proofs
end

section
/-! The drawing of a sprite (42_display.md R140): the bit that the drawing loop lands on a pixel is the bit that the
statements name. -/

namespace Sys2Proof.Proofs

open Sys2Proof.Machine Sys2Proof.Claims

/-- The statements' sprite bit is the one that the laws of the drawing loop speak of: once all 8 columns of a byte
are drawn, none of them is left out. -/
theorem spriteHit_eq_spriteBit (x0 y0 : Nat) (spr : List Byte) (c r : Nat) :
    spriteHit x0 y0 spr c r = spriteBit x0 y0 spr c r := by
  have hdrawn : ∀ col, 7 - col < 8 := fun _ => by omega
  simp [spriteHit, byteBit, spriteBit, hdrawn]

/-- Settles O41: `ScreenDraw` is the drawing of all rows, begun on the screen with no collision. -/
theorem screenDrawXorsTheSpriteAndDetectsCollision : Obligations.ScreenDrawXorsTheSpriteAndDetectsCollision := by
  refine fun fb x0 y0 spr hlen => ⟨fun c r hc hr => ?pixels, ?collision⟩
  case pixels =>
    rw [screenDraw, pixel_drawRows x0 y0 hlen _ hc hr, spriteHit_eq_spriteBit]
  case collision =>
    rw [screenDraw, collision_drawRows x0 y0 hlen]
    simp [spriteHit_eq_spriteBit]

end Sys2Proof.Proofs
end

section
/-! The timer instructions (43_timers_input.md R150, R152, R153): each copies one byte between Vx and a timer. -/

namespace Sys2Proof.Proofs

open Sys2Proof.Machine Sys2Proof.Claims

/-! ## Words of one register and a function byte -/

/-- A function byte is its two nibbles. -/
theorem wordXI_eq_wordXY (op x n1 n0 : Nibble) :
    (op ++ x ++ (n1 ++ n0 : Byte) : InstrWord) = op ++ x ++ n1 ++ n0 := by
  apply BitVec.eq_of_toNat_eq
  rw [toNat_wordXI, toNat_wordXY, toNat_append]; omega

/-- The first row that fits such a word, when it has format XF, gives the instruction of the word's own register. -/
theorem decode_wordXF {op x n1 n0 : Nibble} {f : RegIdx → Instr}
    (h : opcodeTable.find? (·.fits (op ++ x ++ n1 ++ n0)) = some (rowXF op n1 n0 f)) :
    decode (op ++ x ++ (n1 ++ n0 : Byte)) = .ok (f x) :=
  calc decode (op ++ x ++ (n1 ++ n0 : Byte))
    _ = decode (op ++ x ++ n1 ++ n0) := congrArg decode (wordXI_eq_wordXY op x n1 n0)
    _ = .ok (f x) := by simp [decode_eq_ok_of_find? h, rowXF]

theorem decode_getDelay (x : RegIdx) : decode (0xF#4 ++ x ++ 0x07#8) = .ok (.getDelay x) :=
  decode_wordXF (n1 := 0x0#4) (n0 := 0x7#4) (by simp only [fits_wordXY]; rfl)

theorem decode_setDelay (x : RegIdx) : decode (0xF#4 ++ x ++ 0x15#8) = .ok (.setDelay x) :=
  decode_wordXF (n1 := 0x1#4) (n0 := 0x5#4) (by simp only [fits_wordXY]; rfl)

theorem decode_setSound (x : RegIdx) : decode (0xF#4 ++ x ++ 0x18#8) = .ok (.setSound x) :=
  decode_wordXF (n1 := 0x1#4) (n0 := 0x8#4) (by simp only [fits_wordXY]; rfl)

/-! ## The frames of the copies -/

/-- An instruction whose meaning is one register write writes that register alone. -/
theorem writesReg_of_exec {i : Instr} {s : State} {x : RegIdx} {b : Byte} (h : exec i s = .next (s.setV x b)) :
    WritesReg i s x b.toNat := by
  refine ⟨_, h, by rw [State.getV_setV_same], frame_of_v rfl fun q hq => ?_⟩
  rw [State.getV_setV, if_neg hq]

/-- New values of the timers meet every clause of a frame that lists the timers that change. -/
theorem frame_timers (s : State) (d e : Byte) {parts : List Part} (hdt : Part.dt ∉ parts → d = s.dt)
    (hst : Part.st ∉ parts → e = s.st) : Frame s { s with dt := d, st := e } noReg parts noByte :=
  { regs := fun _ _ => rfl, mem := fun _ _ => rfl, pc := fun _ => rfl, i := fun _ => rfl, stack := fun _ => rfl,
    dt := hdt, st := hst, fb := fun _ => rfl, rnd := fun _ => ⟨rfl, rfl⟩,
    keys := rfl, status := rfl, cfg := rfl, inputs := rfl }

/-- The tone is active while ST is at least 1 (R36). -/
theorem soundActive_iff (s : State) : soundActive s = true ↔ 1 ≤ s.st.toNat := decide_eq_true_iff

/-! ## The three instructions -/

/-- Settles O44: GetDelay is one register write, and SetDelay and SetSound each write one timer; the tone is read
off the new ST. -/
theorem timerInstructionsCopyTheTimers : Obligations.TimerInstructionsCopyTheTimers := by
  refine fun x s => ⟨decode_getDelay x, decode_setDelay x, decode_setSound x, writesReg_of_exec rfl, ?setDelay,
    ?setSound⟩
  case setDelay =>
    exact ⟨_, rfl, rfl, frame_timers s (s.getV x) s.st (by simp) fun _ => rfl⟩
  case setSound =>
    exact ⟨_, rfl, rfl, soundActive_iff _, frame_timers s s.dt (s.getV x) (fun _ => rfl) (by simp)⟩

end Sys2Proof.Proofs
end

section
/-! The memory instruction StoreBcd (44_index_memory.md R163): a write of bytes at I, with its frame and its fault, and
the three digits that it writes. -/

namespace Sys2Proof.Proofs

open Sys2Proof.Machine Sys2Proof.Claims

theorem decode_storeBcd (x : RegIdx) : decode (0xF#4 ++ x ++ 0x33#8) = .ok (.storeBcd x) :=
  decode_wordXF (n1 := 0x3#4) (n0 := 0x3#4) (by simp only [fits_wordXY]; rfl)

/-! ## A write at I, its frame and its fault -/

/-- The state after bytes were written at I, I + 1, … (R56). -/
def withBytesAtI (s : State) (bs : List Byte) : State := s.setMem (s.mem.writeBytes s.i.toNat bs)

theorem attempt_writeAtI_of_inBounds {s : State} {bs : List Byte} (h : InBounds s bs.length) :
    s.attempt (s.writeAtI bs) s.setMem = .next (withBytesAtI s bs) := by
  rw [State.writeAtI, memWrite_ok h, State.attempt_ok, withBytesAtI]

theorem attempt_writeAtI_of_not_inBounds {s : State} {bs : List Byte} (h : ¬ InBounds s bs.length) :
    s.attempt (s.writeAtI bs) s.setMem = .next (faulted s (.memoryOutOfBounds s.i bs.length)) := by
  obtain ⟨hne, hgt⟩ := not_or.1 h
  rw [State.writeAtI, memWrite_error (Nat.pos_of_ne_zero hne) (Nat.not_le.1 hgt), State.attempt_error,
    raise_eq_faulted]

theorem readByte_withBytesAtI (s : State) {bs : List Byte} {k : Nat} (h : k < bs.length) :
    (withBytesAtI s bs).mem.readByte (s.i.toNat + k) = bs[k] :=
  Memory.readByte_writeBytes_inside s.mem s.i.toNat k h

/-- A write at I changes the bytes of its own range alone. -/
theorem frame_withBytesAtI (s : State) (bs : List Byte) : Frame s (withBytesAtI s bs) noReg []
    (fun a => s.i.toNat ≤ a ∧ a < s.i.toNat + bs.length) :=
  { regs := fun _ _ => rfl, mem := fun _ ha => Memory.readByte_writeBytes_outside s.mem (by omega),
    pc := fun _ => rfl, i := fun _ => rfl, stack := fun _ => rfl, dt := fun _ => rfl, st := fun _ => rfl,
    fb := fun _ => rfl, rnd := fun _ => ⟨rfl, rfl⟩, keys := rfl, status := rfl, cfg := rfl, inputs := rfl }

/-! ## The digits -/

@[simp] theorem length_bcdDigits (b : Byte) : (bcdDigits b).length = 3 := rfl

/-- The digits weighted by their places give the byte back. -/
theorem weightedSum_bcdDigits (b : Byte) :
    (bcdDigits b)[0].toNat * 100 + (bcdDigits b)[1].toNat * 10 + (bcdDigits b)[2].toNat = b.toNat := by
  have := b.isLt
  simp only [bcdDigits, List.getElem_cons_zero, List.getElem_cons_succ, BitVec.toNat_ofNat]
  omega

/-- A byte is at most 255, so its hundreds are a digit too, without a reduction mod 10. -/
theorem toNat_le_nine_of_mem_bcdDigits {b d : Byte} (h : d ∈ bcdDigits b) : d.toNat ≤ 9 := by
  have := b.isLt
  simp only [bcdDigits, List.mem_cons, List.not_mem_nil, or_false] at h
  obtain rfl | rfl | rfl := h
  all_goals rw [BitVec.toNat_ofNat]; omega

/-! ## The instruction -/

theorem exec_storeBcd_of_inBounds {x : RegIdx} {s : State} (h : InBounds s 3) :
    exec (.storeBcd x) s = .next (withBytesAtI s (bcdDigits (s.getV x))) :=
  attempt_writeAtI_of_inBounds h

theorem exec_storeBcd_of_not_inBounds {x : RegIdx} {s : State} (h : ¬ InBounds s 3) :
    exec (.storeBcd x) s = .next (faulted s (.memoryOutOfBounds s.i 3)) :=
  attempt_writeAtI_of_not_inBounds (bs := bcdDigits (s.getV x)) h

/-- Settles O53: StoreBcd is one write at I, and the bytes it leaves there are the digits of Vx. -/
theorem storeBcdWritesTheThreeDecimalDigits : Obligations.StoreBcdWritesTheThreeDecimalDigits := by
  intro x s
  have hbyte {k : Nat} (hk : k < 3) := readByte_withBytesAtI s (bs := bcdDigits (s.getV x)) hk
  refine ⟨decode_storeBcd x, fun h => ⟨_, exec_storeBcd_of_inBounds h, ?sum, ?digits, frame_withBytesAtI s _⟩,
    exec_storeBcd_of_not_inBounds⟩
  case sum =>
    have hundreds := hbyte (k := 0) (by decide)
    rw [Nat.add_zero] at hundreds
    rw [hundreds, hbyte (by decide), hbyte (by decide), weightedSum_bcdDigits]
  case digits =>
    intro k hk
    rw [hbyte hk]
    exact toNat_le_nine_of_mem_bcdDigits (List.getElem_mem _)

end Sys2Proof.Proofs
end

section
/-! The timer tick (60_exceptions.md R181): the state it leaves on a running core. -/

namespace Sys2Proof.Proofs

open Sys2Proof.Machine

/-- A running core takes the tick, which writes the two timers alone. -/
theorem timerTick_of_running {s : State} (h : s.status = .running) :
    timerTick s = { s with dt := tickDown s.dt, st := tickDown s.st } := by
  rw [timerTick, h]

/-- Settles O48: on a running core the tick is one `tickDown` of each timer, whose floor at zero is that of the
subtraction of numbers. -/
theorem timerTickDecrementsBothTimersToZero : Obligations.TimerTickDecrementsBothTimersToZero := by
  intro s h
  rw [timerTick_of_running h]
  exact ⟨toNat_tickDown s.dt, toNat_tickDown s.st, rfl⟩

end Sys2Proof.Proofs
end

section
/-! Decoding and encoding of every instruction and of every word (30_encoding.md R73, R77, R79): the opcode map format
by format. -/

namespace Sys2Proof.Proofs

/-! ## Decoding of an encoded instruction -/

/-- Formats XI and XYN fix the group nibble alone. -/
theorem fits_wordXI (row : Row) (op : Nibble) (x : RegIdx) (nn : Byte) : row.fits (op ++ x ++ nn) =
    (op == row.n3 && nibbleFits row.n2 x && nibbleFits row.n1 (fieldY (op ++ x ++ nn)) &&
      nibbleFits row.n0 (fieldN (op ++ x ++ nn))) := by
  rw [Row.fits, fieldOp_wordXI, fieldX_wordXI]

/-- The first row that fits such a word, when it has format XI, gives the instruction of the word's own register and
byte. -/
theorem decode_wordXI {op : Nibble} {x : RegIdx} {nn : Byte} {f : RegIdx → Byte → Instr}
    (h : opcodeTable.find? (·.fits (op ++ x ++ nn)) = some (rowXI op f)) :
    decode (op ++ x ++ nn) = .ok (f x nn) := by
  simp [decode_eq_ok_of_find? h, rowXI]

/-- The same for a word and a row of format XYN. -/
theorem decode_wordXYN {op x y n : Nibble} {f : RegIdx → RegIdx → Nibble → Instr}
    (h : opcodeTable.find? (·.fits (op ++ x ++ y ++ n)) = some (rowXYN op f)) :
    decode (op ++ x ++ y ++ n) = .ok (f x y n) := by
  simp [decode_eq_ok_of_find? h, rowXYN]

/-- The same for a word whose function byte is written as two nibbles, and a row of format XF. -/
theorem decode_wordXF_nibbles {op x n1 n0 : Nibble} {f : RegIdx → Instr}
    (h : opcodeTable.find? (·.fits (op ++ x ++ n1 ++ n0)) = some (rowXF op n1 n0 f)) :
    decode (op ++ x ++ n1 ++ n0) = .ok (f x) := by
  simp [decode_eq_ok_of_find? h, rowXF]

/-- Settles O5: the word of an instruction first fits the row of its own instruction, and each operand field of the word
is the operand. -/
theorem decodeOfEncodeIsTheInstruction : Obligations.DecodeOfEncodeIsTheInstruction := by
  intro i
  cases i with
  | clear => exact decode_eq_ok_of_find? (r := rowZ 0xE 0x0 .clear) rfl
  | ret => exact decode_ret
  | jump | call | setIdx | jumpV0 => exact decode_wordA (by simp only [fits_wordA]; rfl)
  | eqNum | neqNum | setNum | addNum | rand => exact decode_wordXI (by simp only [fits_wordXI]; rfl)
  | eq | neq | set | or | and | xor | add | sub | shr | subb | shl =>
    exact decode_wordXY (by simp only [fits_wordXY]; rfl)
  | draw => exact decode_wordXYN (by simp only [fits_wordXY]; rfl)
  | keyEq | keyNeq | getDelay | waitKey | setDelay | setSound | addIdx | setSprite | storeBcd | store | load =>
    exact decode_wordXF_nibbles (by simp only [fits_wordXY]; rfl)

/-! ## Encoding of a decoded word -/

/-- A word is its fields put together again, in each of the ways the formats cut it. -/
theorem wordA_fields (w : InstrWord) : fieldOp w ++ fieldNNN w = w := by
  apply BitVec.eq_of_toNat_eq
  rw [toNat_wordA, toNat_fieldOp, toNat_fieldNNN]; omega

theorem wordXI_fields (w : InstrWord) : (fieldOp w ++ fieldX w ++ fieldNN w : InstrWord) = w := by
  apply BitVec.eq_of_toNat_eq
  rw [toNat_wordXI, toNat_fieldOp, toNat_fieldX, toNat_fieldNN]; omega

theorem wordXY_fields (w : InstrWord) : (fieldOp w ++ fieldX w ++ fieldY w ++ fieldN w : InstrWord) = w := by
  apply BitVec.eq_of_toNat_eq
  rw [toNat_wordXY, toNat_fieldOp, toNat_fieldX, toNat_fieldY, toNat_fieldN]; omega

/-- Every word that fits the row is the word of the instruction the row builds from it. -/
def EncodesBack (r : Row) : Prop := ∀ w, r.fits w = true → encode (r.build w) = w

theorem fits_iff (r : Row) (w : InstrWord) : r.fits w = true ↔ fieldOp w = r.n3 ∧
    nibbleFits r.n2 (fieldX w) = true ∧ nibbleFits r.n1 (fieldY w) = true ∧ nibbleFits r.n0 (fieldN w) = true := by
  simp [Row.fits, and_assoc]

@[simp] theorem nibbleFits_none (v : Nibble) : nibbleFits none v = true := rfl

@[simp] theorem nibbleFits_some (n v : Nibble) : nibbleFits (some n) v = (v == n) := rfl

theorem encodesBack_rowZ {n1 n0 : Nibble} {i : Instr} (h : encode i = 0x0#4 ++ 0x0#4 ++ n1 ++ n0) :
    EncodesBack (rowZ n1 n0 i) := by
  intro w hw
  obtain ⟨h3, h2, h1, h0⟩ := (fits_iff _ w).1 hw
  simp only [rowZ, nibbleFits_some, beq_iff_eq] at h3 h2 h1 h0 ⊢
  conv_rhs => rw [← wordXY_fields w, h3, h2, h1, h0]
  exact h

theorem encodesBack_rowA {op : Nibble} {f : Addr → Instr} (h : ∀ nnn, encode (f nnn) = op ++ nnn) :
    EncodesBack (rowA op f) := by
  intro w hw
  obtain ⟨h3, -⟩ := (fits_iff _ w).1 hw
  simp only [rowA] at h3 ⊢
  rw [h, ← h3, wordA_fields]

theorem encodesBack_rowXI {op : Nibble} {f : RegIdx → Byte → Instr}
    (h : ∀ x nn, encode (f x nn) = op ++ x ++ nn) : EncodesBack (rowXI op f) := by
  intro w hw
  obtain ⟨h3, -⟩ := (fits_iff _ w).1 hw
  simp only [rowXI] at h3 ⊢
  rw [h, ← h3, wordXI_fields]

theorem encodesBack_rowXY {op n : Nibble} {f : RegIdx → RegIdx → Instr}
    (h : ∀ x y, encode (f x y) = op ++ x ++ y ++ n) : EncodesBack (rowXY op n f) := by
  intro w hw
  obtain ⟨h3, -, -, h0⟩ := (fits_iff _ w).1 hw
  simp only [rowXY, nibbleFits_some, beq_iff_eq] at h3 h0 ⊢
  rw [h, ← h3, ← h0, wordXY_fields]

theorem encodesBack_rowXYN {op : Nibble} {f : RegIdx → RegIdx → Nibble → Instr}
    (h : ∀ x y n, encode (f x y n) = op ++ x ++ y ++ n) : EncodesBack (rowXYN op f) := by
  intro w hw
  obtain ⟨h3, -⟩ := (fits_iff _ w).1 hw
  simp only [rowXYN] at h3 ⊢
  rw [h, ← h3, wordXY_fields]

theorem encodesBack_rowXF {op n1 n0 : Nibble} {f : RegIdx → Instr}
    (h : ∀ x, encode (f x) = op ++ x ++ n1 ++ n0) : EncodesBack (rowXF op n1 n0 f) := by
  intro w hw
  obtain ⟨h3, -, h1, h0⟩ := (fits_iff _ w).1 hw
  simp only [rowXF, nibbleFits_some, beq_iff_eq] at h3 h1 h0 ⊢
  rw [h, ← h3, ← h1, ← h0, wordXY_fields]

theorem encodesBack_tableLow : ∀ r ∈ opcodeTableLow, EncodesBack r := by
  simp only [opcodeTableLow, List.forall_mem_cons]
  exact ⟨encodesBack_rowZ rfl, encodesBack_rowZ rfl, encodesBack_rowA fun _ => rfl, encodesBack_rowA fun _ => rfl,
    encodesBack_rowXI fun _ _ => rfl, encodesBack_rowXI fun _ _ => rfl, encodesBack_rowXY fun _ _ => rfl,
    encodesBack_rowXI fun _ _ => rfl, encodesBack_rowXI fun _ _ => rfl, List.forall_mem_nil _⟩

theorem encodesBack_tableXY : ∀ r ∈ opcodeTableXY, EncodesBack r := by
  simp only [opcodeTableXY, List.forall_mem_cons]
  refine ⟨?_, ?_, ?_, ?_, ?_, ?_, ?_, ?_, ?_, ?_, List.forall_mem_nil _⟩
  all_goals exact encodesBack_rowXY fun _ _ => rfl

theorem encodesBack_tableHigh : ∀ r ∈ opcodeTableHigh, EncodesBack r := by
  simp only [opcodeTableHigh, List.forall_mem_cons]
  refine ⟨encodesBack_rowA fun _ => rfl, encodesBack_rowA fun _ => rfl, encodesBack_rowXI fun _ _ => rfl,
    encodesBack_rowXYN fun _ _ _ => rfl, ?_, ?_, ?_, ?_, ?_, ?_, ?_, ?_, ?_, ?_, ?_, List.forall_mem_nil _⟩
  all_goals exact encodesBack_rowXF fun _ => rfl

theorem encodesBack_of_mem {r : Row} (h : r ∈ opcodeTable) : EncodesBack r := by
  simp only [opcodeTable, List.mem_append] at h
  obtain (h | h) | h := h
  · exact encodesBack_tableLow r h
  · exact encodesBack_tableXY r h
  · exact encodesBack_tableHigh r h

/-- A decoded word fits a row of the opcode map that builds the instruction. -/
theorem exists_row_of_decode_ok {w : InstrWord} {i : Instr} (h : decode w = .ok i) :
    ∃ r ∈ opcodeTable, r.fits w = true ∧ r.build w = i := by
  unfold decode at h
  split at h
  · rename_i r hr
    cases h
    exact ⟨r, List.mem_of_find?_eq_some hr, List.find?_some (p := fun r : Row => r.fits w) hr, rfl⟩
  · cases h

/-- Settles O6: the word fits a row of the opcode map, and every row's instruction encodes back to its word. -/
theorem encodeOfDecodeIsTheWord : Obligations.EncodeOfDecodeIsTheWord := by
  intro w i h
  obtain ⟨r, hr, hfits, rfl⟩ := exists_row_of_decode_ok h
  exact encodesBack_of_mem hr w hfits

/-! ## The rows exclude each other -/

/-- Two patterns fix a nibble to different values. -/
def nibblesDiffer : Option Nibble → Option Nibble → Bool
  | some a, some b => a != b
  | _, _ => false

/-- Two rows fix some nibble to different values. -/
def rowsDiffer (r r' : Row) : Bool :=
  r.n3 != r'.n3 || nibblesDiffer r.n2 r'.n2 || nibblesDiffer r.n1 r'.n1 || nibblesDiffer r.n0 r'.n0

theorem not_nibblesDiffer_of_fits {p q : Option Nibble} {v : Nibble} (hp : nibbleFits p v = true)
    (hq : nibbleFits q v = true) : nibblesDiffer p q = false := by
  cases p with
  | none => rfl
  | some a =>
    cases q with
    | none => rfl
    | some b => simp_all [nibblesDiffer]

/-- A word that fits two rows has every nibble that either fixes, so they fix none to different values. -/
theorem not_rowsDiffer_of_fits {r r' : Row} {w : InstrWord} (h : r.fits w = true) (h' : r'.fits w = true) :
    rowsDiffer r r' = false := by
  obtain ⟨h3, h2, h1, h0⟩ := (fits_iff r w).1 h
  obtain ⟨h3', h2', h1', h0'⟩ := (fits_iff r' w).1 h'
  simp [rowsDiffer, ← h3, ← h3', not_nibblesDiffer_of_fits h2 h2', not_nibblesDiffer_of_fits h1 h1',
    not_nibblesDiffer_of_fits h0 h0']

theorem opcodeTable_rowsDiffer : opcodeTable.Pairwise fun r r' => rowsDiffer r r' = true := by decide

/-- Settles O9: any two rows of the opcode map fix some nibble to different values. -/
theorem opcodeRowsDoNotOverlap : Obligations.OpcodeRowsDoNotOverlap := by
  refine opcodeTable_rowsDiffer.imp fun {r r'} hdiffer w hfits => ?_
  obtain ⟨hr, hr'⟩ := hfits
  rw [not_rowsDiffer_of_fits hr hr'] at hdiffer
  cases hdiffer

/-! ## The words that are no instruction -/

/-- The word fits no row of the opcode map. -/
def FitsNoRow (w : InstrWord) : Prop := ∀ r ∈ opcodeTable, r.fits w = false

/-- A word is rejected iff it fits no row, and then under its group's name. -/
theorem decode_eq_error_iff {w : InstrWord} {r : Reject} : decode w = .error r ↔ FitsNoRow w ∧ rejectOf w = r := by
  constructor
  · intro h
    have hno : FitsNoRow w := by
      intro row hrow
      unfold decode at h
      split at h
      · cases h
      · rename_i hnone
        simpa using List.find?_eq_none.1 hnone row hrow
    rw [decode_eq_error_of_fits_none hno] at h
    cases h
    exact ⟨hno, rfl⟩
  · rintro ⟨hno, rfl⟩
    exact decode_eq_error_of_fits_none hno

/-- What `rejectOf` names each group. -/
theorem rejectOf_eq (w : InstrWord) : (rejectOf w = .group0 w ↔ fieldOp w = 0x0) ∧
    (rejectOf w = .group5 w ↔ fieldOp w = 0x5) ∧ (rejectOf w = .group8 w ↔ fieldOp w = 0x8) ∧
    (rejectOf w = .group9 w ↔ fieldOp w = 0x9) ∧ (rejectOf w = .groupE w ↔ fieldOp w = 0xE) ∧
    (rejectOf w = .groupF w ↔ fieldOp w = 0xF) := by
  unfold rejectOf
  split_ifs <;> simp_all

theorem fieldOp_eq_iff {w : InstrWord} {v : Nibble} : fieldOp w = v ↔ w.toNat / 0x1000 = v.toNat := by
  rw [← BitVec.toNat_inj, toNat_fieldOp]

/-- Only the rows of the word's own group can fit it. -/
theorem fitsNoRow_iff (w : InstrWord) : FitsNoRow w ↔ ∀ r ∈ opcodeTable, fieldOp w = r.n3 →
    ¬ (nibbleFits r.n2 (fieldX w) = true ∧ nibbleFits r.n1 (fieldY w) = true ∧ nibbleFits r.n0 (fieldN w) = true) := by
  simp only [FitsNoRow, ← Bool.not_eq_true, fits_iff, not_and]

/-- The two function nibbles of format XF as one byte. -/
theorem fieldY_fieldN_eq_iff {w : InstrWord} {a b : Nibble} :
    fieldY w = a ∧ fieldN w = b ↔ w.toNat % 256 = a.toNat * 16 + b.toNat := by
  rw [← BitVec.toNat_inj, ← BitVec.toNat_inj, toNat_fieldY, toNat_fieldN]; omega

theorem fieldN_eq_iff {w : InstrWord} {v : Nibble} : fieldN w = v ↔ w.toNat % 16 = v.toNat := by
  rw [← BitVec.toNat_inj, toNat_fieldN]

/-- Group 0 has two words. -/
theorem fitsNoRow_group0 {w : InstrWord} (h : fieldOp w = 0x0) :
    FitsNoRow w ↔ w ≠ 0x00E0#16 ∧ w ≠ 0x00EE#16 := by
  have hop := fieldOp_eq_iff.1 h
  rw [fitsNoRow_iff]
  simp [opcodeTable, opcodeTableLow, opcodeTableXY, opcodeTableHigh, rowZ, rowA, rowXI, rowXY, rowXYN, rowXF,
    h, ← BitVec.toNat_inj, toNat_fieldX, toNat_fieldY, toNat_fieldN] at hop ⊢
  omega

/-- Groups 5, 8 and 9 fix the lowest nibble. -/
theorem fitsNoRow_groups589 (w : InstrWord) :
    (fieldOp w = 0x5 → (FitsNoRow w ↔ w.toNat % 16 ≠ 0)) ∧
    (fieldOp w = 0x8 → (FitsNoRow w ↔ w.toNat % 16 ∈ [8, 9, 0xA, 0xB, 0xC, 0xD, 0xF])) ∧
    (fieldOp w = 0x9 → (FitsNoRow w ↔ w.toNat % 16 ≠ 0)) := by
  refine ⟨fun h => ?group5, fun h => ?group8, fun h => ?group9⟩
  all_goals
    rw [fitsNoRow_iff]
    simp [opcodeTable, opcodeTableLow, opcodeTableXY, opcodeTableHigh, rowZ, rowA, rowXI, rowXY, rowXYN, rowXF, h,
      fieldN_eq_iff]
  case group8 => omega

/-- Groups E and F fix the low byte. -/
theorem fitsNoRow_groupsEF (w : InstrWord) :
    (fieldOp w = 0xE → (FitsNoRow w ↔ w.toNat % 256 ∉ [0x9E, 0xA1])) ∧
    (fieldOp w = 0xF → (FitsNoRow w ↔
      w.toNat % 256 ∉ [0x07, 0x0A, 0x15, 0x18, 0x1E, 0x29, 0x33, 0x55, 0x65])) := by
  refine ⟨fun h => ?_, fun h => ?_⟩
  all_goals
    rw [fitsNoRow_iff]
    simp [opcodeTable, opcodeTableLow, opcodeTableXY, opcodeTableHigh, rowZ, rowA, rowXI, rowXY, rowXYN, rowXF, h,
      fieldY_fieldN_eq_iff, -not_and]

/-- Each of the other groups has a row that fixes nothing but the group. -/
theorem exists_open_row_of_otherGroup : ∀ op : Nibble, op ∉ [0x0, 0x5, 0x8, 0x9, 0xE, 0xF] →
    ∃ r ∈ opcodeTable, op = r.n3 ∧ r.n2 = none ∧ r.n1 = none ∧ r.n0 = none := by decide

theorem not_fitsNoRow_of_otherGroup {w : InstrWord} (h : fieldOp w ∉ [0x0, 0x5, 0x8, 0x9, 0xE, 0xF]) :
    ¬ FitsNoRow w := by
  obtain ⟨r, hr, h3, h2, h1, h0⟩ := exists_open_row_of_otherGroup _ h
  intro hno
  have hfits : r.fits w = true := (fits_iff r w).2 (by simp [h3, h2, h1, h0])
  rw [hno r hr] at hfits
  cases hfits

/-- Settles O8: a word is rejected iff it fits no row, which in each group is a condition on its low nibbles, and the
group without illegal words is never named. -/
theorem illegalWordsAreExactlyTheListedOnes : Obligations.IllegalWordsAreExactlyTheListedOnes := by
  intro w
  obtain ⟨g5, g8, g9⟩ := fitsNoRow_groups589 w
  obtain ⟨gE, gF⟩ := fitsNoRow_groupsEF w
  obtain ⟨n0, n5, n8, n9, nE, nF⟩ := rejectOf_eq w
  have clause {r : Reject} {op : Nibble} {P : Prop} (hname : rejectOf w = r ↔ fieldOp w = op)
      (hrows : fieldOp w = op → (FitsNoRow w ↔ P)) :
      decode w = .error r ↔ w.toNat / 0x1000 = op.toNat ∧ P := by
    rw [decode_eq_error_iff, hname, ← fieldOp_eq_iff, and_comm, and_congr_right_iff]
    exact hrows
  refine ⟨clause n0 fitsNoRow_group0, clause n5 g5, clause n8 g8, clause n9 g9, clause nE gE, clause nF gF,
    fun r h => ?complete⟩
  case complete =>
    obtain ⟨hno, rfl⟩ := decode_eq_error_iff.1 h
    by_contra hother
    refine not_fitsNoRow_of_otherGroup (fun hop => hother ?_) hno
    simp only [List.mem_cons, List.not_mem_nil, or_false] at hop ⊢
    simpa only [n0, n5, n8, n9, nE, nF] using hop

end Sys2Proof.Proofs
end

section
/-! The step (30_encoding.md R71, R72; 60_exceptions.md R172, R177, R191): which event it performs, what it answers on
each, and what every step keeps. -/

namespace Sys2Proof.Proofs

open Sys2Proof.Machine Sys2Proof.Claims

/-! ## The instruction step -/

/-- On a running core whose next strobe is an instruction step (none in store, or `step` first) the step is one. -/
theorem step_eq_instrStep {s : State} {q : List HostEvent} (hrun : s.status = .running)
    (hq : s.inputs = .step :: q ∨ (s.inputs = [] ∧ q = [])) : step s = instrStep { s with inputs := q } := by
  obtain ⟨v, pc, i, stack, dt, st, mem, fb, keys, status, cfg, inputs, rndIn, rndDraws⟩ := s
  cases hrun
  obtain h | ⟨h, rfl⟩ := hq <;> cases h <;> rfl

/-- With no strobe in store the instruction step is of the same state. -/
theorem step_eq_instrStep_self {s : State} (hrun : s.status = .running) (h : s.inputs = []) : step s = instrStep s := by
  rw [step_eq_instrStep hrun (.inr ⟨h, rfl⟩), ← h]

/-- The word that a step fetches at PC. -/
def wordAtPc (s : State) : InstrWord := s.mem.readByte s.pc.toNat ++ s.mem.readByte (s.pc.toNat + 1)

theorem instrStep_of_decode_ok {s : State} {i : Instr} (hpc : s.pc.toNat ≤ 0xFFD) (h : decode (wordAtPc s) = .ok i) :
    instrStep s = exec i (s.setPc (s.pc + 2#12)) := by
  rw [wordAtPc] at h
  simp only [instrStep, fetch_ok hpc, h]

theorem instrStep_of_decode_error {s : State} {r : Reject} (hpc : s.pc.toNat ≤ 0xFFD)
    (h : decode (wordAtPc s) = .error r) :
    instrStep s = .next (s.faultAt s.pc (.illegalInstruction (wordAtPc s))) := by
  rw [wordAtPc] at h ⊢
  simp only [instrStep, fetch_ok hpc, h]

theorem instrStep_of_fetch_error {s : State} {e : FaultInfo} (h : fetch s = .error e) :
    instrStep s = .next (s.faultAt s.pc e) := by
  simp only [instrStep, h]

theorem fetch_at_FFF {s : State} (h : s.pc = 0xFFF#12) : fetch s = .error (.memoryOutOfBounds 0xFFF#12 2) := by
  simp only [fetch, h, memRead16_error (a := 0xFFF#12) rfl]

theorem fetch_at_FFE {s : State} (h : s.pc = 0xFFE#12) : fetch s = .error (.addressOverflow 0x1000) := by
  simp only [fetch, h, memRead16_ok (m := s.mem) (a := 0xFFE#12) (by decide)]; rfl

/-- Settles O10: such a step is the instruction step, whose fetch succeeds. -/
theorem stepRunsTheDecodedInstruction : Obligations.StepRunsTheDecodedInstruction := by
  intro s i q hrun hq hpc hdecode
  rw [step_eq_instrStep hrun hq]
  exact instrStep_of_decode_ok (s := { s with inputs := q }) hpc hdecode

/-- Settles O11: the fetch fails on its read at 0xFFF and on its increment at 0xFFE; elsewhere the decode fails. -/
theorem stepFaultsWhereNothingCanBeFetchedOrDecoded : Obligations.StepFaultsWhereNothingCanBeFetchedOrDecoded := by
  intro s q hrun hq
  rw [step_eq_instrStep hrun hq]
  refine ⟨fun h => ?atFFF, fun h => ?atFFE, fun hpc r hdecode => ?illegal⟩
  case atFFF =>
    rw [instrStep_of_fetch_error (s := { s with inputs := q }) (fetch_at_FFF h), State.faultAt, ← h]
  case atFFE =>
    rw [instrStep_of_fetch_error (s := { s with inputs := q }) (fetch_at_FFE h), State.faultAt, ← h]
  case illegal => exact instrStep_of_decode_error (s := { s with inputs := q }) hpc hdecode

/-! ## The host's events -/

theorem setKeyPressed_of_lt {s : State} {k : Nat} (hrun : s.status = .running) (h : k < 16) (b : Bool) :
    setKeyPressed k b s = { s with keys := s.keys.set k b h } := by
  simp only [setKeyPressed, hrun, dif_pos h]

theorem setKeyPressed_of_ge {s : State} {k : Nat} (h : 16 ≤ k) (b : Bool) : setKeyPressed k b s = s := by
  unfold setKeyPressed
  split
  · rw [dif_neg (by omega)]
  · rfl

/-- The setter changes key flags only. -/
theorem setKeyPressed_eq (k : Nat) (b : Bool) (s : State) :
    setKeyPressed k b s = { s with keys := (setKeyPressed k b s).keys } := by
  unfold setKeyPressed
  split
  · split <;> rfl
  · rfl

theorem getElem_setKeyPressed {s : State} (hrun : s.status = .running) (k : Nat) (b : Bool) {j : Nat} (hj : j < 16) :
    (setKeyPressed k b s).keys[j] = if j = k then b else s.keys[j] := by
  rcases Nat.lt_or_ge k 16 with hk | hk
  · simp only [setKeyPressed_of_lt hrun hk, Vector.getElem_set, eq_comm]
  · rw [setKeyPressed_of_ge hk, if_neg (by omega)]

theorem step_tick {s : State} {q : List HostEvent} (hrun : s.status = .running) (h : s.inputs = .tick60 :: q) :
    step s = .next (timerTick { s with inputs := q }) := by
  simp only [step, hrun, nextEvent, h]

theorem step_keySet {s : State} {k : Nat} {b : Bool} {q : List HostEvent} (hrun : s.status = .running)
    (h : s.inputs = .keySet k b :: q) : step s = .next (setKeyPressed k b { s with inputs := q }) := by
  simp only [step, hrun, nextEvent, h]

/-- Settles O49: on a running core the setter writes one flag, and a number above 15 names none. -/
theorem setKeyPressedSetsOneFlag : Obligations.SetKeyPressedSetsOneFlag :=
  fun k b s hrun =>
    ⟨fun _ => getElem_setKeyPressed hrun k b, setKeyPressed_eq k b s, fun hk => setKeyPressed_of_ge hk b⟩

/-- Settles O12: the step is the tick or the key change, on the state with that strobe taken. -/
theorem stepPerformsTheHostsNextEvent : Obligations.StepPerformsTheHostsNextEvent := by
  refine fun s q hrun => ⟨fun h => ⟨_, step_tick hrun h, ?tick⟩, fun k b h => ⟨_, step_keySet hrun h, ?key, ?frame⟩⟩
  case tick => exact timerTickDecrementsBothTimersToZero { s with inputs := q } hrun
  case key => exact fun j => getElem_setKeyPressed (s := { s with inputs := q }) hrun k b
  case frame => exact setKeyPressed_eq k b { s with inputs := q }

/-- Settles O13: step, tick and key setter each look at the status first. -/
theorem faultedCoreTakesNoEvent : Obligations.FaultedCoreTakesNoEvent := by
  intro s e a h
  refine ⟨step_faulted h, ?_, fun k b => ?_⟩
  · rw [timerTick, h]
  · rw [setKeyPressed, h]

/-! ## What a step can do -/

/-- Only a running core has a next state. -/
theorem running_of_step_next {s t : State} (h : step s = .next t) : s.status = .running := by
  cases hst : s.status with
  | running => rfl
  | faulted e a => rw [step_faulted hst] at h; cases h

/-- A step that answers a next state has one of three effects, each of which takes the strobe: it records a fault at
PC, it runs an instruction that does not fault, or it performs an event of the host. -/
theorem step_next_cases {s t : State} (h : step s = .next t) :
    (∃ e, (∀ n, e ≠ .loadOverflow n) ∧ t = { s with inputs := s.inputs.tail, status := .faulted e s.pc }) ∨
    Kept { s with pc := s.pc + 2#12, inputs := s.inputs.tail } t ∨
    ∃ d e ks, t = { s with inputs := s.inputs.tail, dt := d, st := e, keys := ks } ∧
      (ks = s.keys ∨ ∃ k b q, s.inputs = .keySet k b :: q) := by
  obtain hstep | ⟨q, hq, hstep⟩ | ⟨k, b, q, hq, ks, hstep⟩ := step_running (running_of_step_next h)
  · obtain ⟨e, he, hfault⟩ | ⟨i, t', hnext, -, hkept⟩ := instrStep_cases { s with inputs := s.inputs.tail }
    · rw [hstep, hfault] at h
      cases h
      exact .inl ⟨e, he, rfl⟩
    · rw [hstep, hnext] at h
      cases h
      exact .inr (.inl hkept)
  · rw [hstep] at h
    cases h
    exact .inr (.inr ⟨_, _, s.keys, by rw [hq]; rfl, .inl rfl⟩)
  · rw [hstep] at h
    cases h
    exact .inr (.inr ⟨s.dt, s.st, ks, by rw [hq]; rfl, .inr ⟨k, b, q, hq⟩⟩)

/-- Settles O14: of the three effects of a step only the recorded fault leaves the core Faulted. -/
theorem faultingStepChangesOnlyTheStatus : Obligations.FaultingStepChangesOnlyTheStatus := by
  intro s t h hfaulted
  have hrun := running_of_step_next h
  obtain ⟨e, -, rfl⟩ | hkept | ⟨d, e, ks, rfl, -⟩ := step_next_cases h
  · exact ⟨e, rfl⟩
  · exact absurd (hkept.status.trans hrun) hfaulted
  · exact absurd hrun hfaulted

/-- Settles O18: none of the three effects of a step touches the parameters. -/
theorem noStepChangesTheParameters : Obligations.NoStepChangesTheParameters := by
  intro s t h
  obtain ⟨e, -, rfl⟩ | hkept | ⟨d, e, ks, rfl, -⟩ := step_next_cases h
  · rfl
  · exact hkept.cfg
  · rfl

/-! ## The invariant -/

theorem stackFits_iff (s : State) : s.stackFits = true ↔ ∀ d, s.cfg.stackDepth = some d → s.stack.length ≤ d := by
  unfold State.stackFits
  cases s.cfg.stackDepth <;> simp

theorem noLoadOverflow_iff (s : State) : s.noLoadOverflow = true ↔ ∀ n a, s.status ≠ .faulted (.loadOverflow n) a := by
  unfold State.noLoadOverflow
  split
  · rename_i n a h; simp [h]
  · rename_i h; simpa using h

/-- A stack that fits and is not full has room for one entry more. -/
theorem length_lt_of_not_full {s : State} (hfits : s.stackFits = true) (hroom : s.stackFull = false) {d : Nat}
    (hd : s.cfg.stackDepth = some d) : s.stack.length < d := by
  have hle := (stackFits_iff s).1 hfits d hd
  have hne : d ≠ s.stack.length := by simpa [State.stackFull, hd] using hroom
  omega

/-- An instruction that does not fault keeps the invariant: it writes memory only through `MemWrite`, and pushes only
on a stack that is not full. -/
theorem inv_of_kept {s t : State} (hs : s.Inv) (h : Kept s t) : t.Inv := by
  obtain ⟨hmem, hfits, hload⟩ := hs
  refine ⟨?mem, (stackFits_iff t).2 fun d hd => ?stack, (noLoadOverflow_iff t).2 ?status⟩
  case mem =>
    obtain hsame | ⟨bs, hwrite⟩ := h.mem
    · rwa [hsame]
    · exact memWrite_wf hmem hwrite
  case stack =>
    rw [h.cfg] at hd
    have hle := (stackFits_iff s).1 hfits d hd
    obtain hsame | hpop | ⟨hroom, hpush⟩ := h.stack
    · rwa [hsame]
    · rw [hpop, List.length_cons] at hle; omega
    · rw [hpush]; exact length_lt_of_not_full hfits hroom hd
  case status => rw [h.status]; exact (noLoadOverflow_iff s).1 hload

/-- Settles O16: a recorded fault is none of construction's, an instruction that does not fault keeps the invariant, and
an event of the host touches nothing it speaks of. -/
theorem everyStepKeepsTheInvariant : Obligations.EveryStepKeepsTheInvariant := by
  intro s t hs h
  obtain ⟨hmem, hfits, hload⟩ := hs
  obtain ⟨e, he, rfl⟩ | hkept | ⟨d, e, ks, rfl, -⟩ := step_next_cases h
  · refine ⟨hmem, hfits, (noLoadOverflow_iff _).2 fun n a heq => ?_⟩
    cases heq
    exact he n rfl
  · exact inv_of_kept (s := { s with pc := s.pc + 2#12, inputs := s.inputs.tail }) ⟨hmem, hfits, hload⟩ hkept
  · exact ⟨hmem, hfits, hload⟩

/-- Settles O17: after reset no cell is listed, the stack is unbounded and the core runs. -/
theorem resetMeetsTheInvariant : Obligations.ResetMeetsTheInvariant := ⟨Memory.wf_nil, rfl, rfl⟩

/-! ## The idle core -/

/-- Settles O59: the word at p is a Jump to p, which puts back the PC that the fetch advanced. -/
theorem idleCoreStepsToItself : Obligations.IdleCoreStepsToItself := by
  rintro s p ⟨hrun, rfl, hp, hword⟩ hin
  rw [memRead16_ok (by omega)] at hword
  have hdecode : decode (wordAtPc s) = .ok (.jump s.pc) := by
    rw [← decode_jump, ← Except.ok.inj hword]; rfl
  rw [step_eq_instrStep_self hrun hin, instrStep_of_decode_ok hp hdecode]
  rfl

/-- Settles O60: by induction on the number of steps, each of which answers the idle state itself. -/
theorem idleCoreIsSafeForAnyNumberOfSteps : Obligations.IdleCoreIsSafeForAnyNumberOfSteps := by
  intro n s p hidle hin
  induction n with
  | zero => exact hidle.1
  | succ n ih =>
    rw [SafeFor, idleCoreStepsToItself s p hidle hin]
    exact ih

end Sys2Proof.Proofs
end

section
/-! The conditional skips (41_control_flow.md R125–R131) and Call (R122): when PC moves, what Call pushes, and where
they fault. -/

namespace Sys2Proof.Proofs

open Sys2Proof.Machine Sys2Proof.Claims

/-! ## Skips -/

/-- A state is its own frame. -/
theorem frame_refl (s : State) : Frame s s noReg [] noByte := frame_of_v rfl fun _ _ => rfl

theorem toNat_pc_add_two {a : Addr} (h : a.toNat ≤ 0xFFD) : (a + 2#12).toNat = a.toNat + 2 := by
  rw [BitVec.toNat_add, BitVec.toNat_ofNat]; omega

/-- An instruction whose meaning is `Skip` of a flag that says c skips on c. -/
theorem skipsOn_of_exec {i : Instr} {s : State} {b : Bool} {c : Prop} (h : exec i s = s.skipIf b)
    (hc : b = true ↔ c) : SkipsOn i c s := by
  obtain rfl := propext hc
  rw [SkipsOn, h]
  refine ⟨?skip, ?stay, ?fault⟩
  case skip =>
    rintro rfl hpc
    exact ⟨_, State.skipIf_true hpc, toNat_pc_add_two hpc, frame_setPc s _⟩
  case stay =>
    intro hb
    rw [Bool.eq_false_of_not_eq_true hb]
    exact ⟨s, State.skipIf_false s, frame_refl s⟩
  case fault =>
    rintro rfl hpc
    exact State.skipIf_fault hpc

theorem byte_beq_iff (a b : Byte) : (a == b) = true ↔ a.toNat = b.toNat := by rw [beq_iff_eq, BitVec.toNat_inj]

theorem byte_bne_iff (a b : Byte) : (a != b) = true ↔ a.toNat ≠ b.toNat := by
  rw [bne_iff_ne, ne_eq, ne_eq, BitVec.toNat_inj]

/-- Settles O37: each comparison is a `Skip` of its own test of two bytes. -/
theorem comparisonSkipsFollowTheirConditions : Obligations.ComparisonSkipsFollowTheirConditions :=
  fun _ _ _ _ => ⟨skipsOn_of_exec rfl (byte_beq_iff ..), skipsOn_of_exec rfl (byte_bne_iff ..),
    skipsOn_of_exec rfl (byte_beq_iff ..), skipsOn_of_exec rfl (byte_bne_iff ..)⟩

/-! ## Skips on a key -/

/-- A value below 16 names the key of that number. -/
theorem keyNamedBy_of_lt {s : State} {x : RegIdx} (h : (s.getV x).toNat < 16) :
    ∃ k, s.keyNamedBy x = .ok k ∧ s.key k = s.keys[(s.getV x).toNat] := by
  refine ⟨_, if_pos (Nat.le_of_lt_succ h), ?_⟩
  have hk : ((s.getV x).setWidth 4).toNat = (s.getV x).toNat := by rw [BitVec.toNat_setWidth, Nat.mod_eq_of_lt h]
  simp only [State.key, hk]

theorem keyNamedBy_of_gt {s : State} {x : RegIdx} (h : 0xF < (s.getV x).toNat) :
    s.keyNamedBy x = .error (.invalidKey (s.getV x)) := if_neg (Nat.not_le.2 h)

theorem exec_keyEq_of_lt {s : State} {x : RegIdx} (h : (s.getV x).toNat < 16) :
    exec (.keyEq x) s = s.skipIf s.keys[(s.getV x).toNat] := by
  obtain ⟨k, hnamed, hkey⟩ := keyNamedBy_of_lt h
  simp only [exec, execKeyEq, hnamed, hkey]

theorem exec_keyNeq_of_lt {s : State} {x : RegIdx} (h : (s.getV x).toNat < 16) :
    exec (.keyNeq x) s = s.skipIf (!s.keys[(s.getV x).toNat]) := by
  obtain ⟨k, hnamed, hkey⟩ := keyNamedBy_of_lt h
  simp only [exec, execKeyNeq, hnamed, hkey]

theorem exec_keyEq_of_gt {s : State} {x : RegIdx} (h : 0xF < (s.getV x).toNat) :
    exec (.keyEq x) s = .next (faulted s (.invalidKey (s.getV x))) := by
  simp only [exec, execKeyEq, keyNamedBy_of_gt h, raise_eq_faulted]

theorem exec_keyNeq_of_gt {s : State} {x : RegIdx} (h : 0xF < (s.getV x).toNat) :
    exec (.keyNeq x) s = .next (faulted s (.invalidKey (s.getV x))) := by
  simp only [exec, execKeyNeq, keyNamedBy_of_gt h, raise_eq_faulted]

/-- Settles O38: with a key named, both are a `Skip` on its flag. -/
theorem keySkipsFollowTheNamedKey : Obligations.KeySkipsFollowTheNamedKey :=
  fun _ _ h => ⟨skipsOn_of_exec (exec_keyEq_of_lt h) Iff.rfl,
    skipsOn_of_exec (exec_keyNeq_of_lt h) (Bool.not_eq_true' _).to_iff⟩

/-- Settles O39: the key is named, and its fault taken, before anything is skipped. -/
theorem keySkipsFaultOnAnInvalidKey : Obligations.KeySkipsFaultOnAnInvalidKey :=
  fun _ _ h => ⟨exec_keyEq_of_gt h, exec_keyNeq_of_gt h⟩

/-! ## Call -/

theorem stackFull_iff (s : State) : s.stackFull = true ↔ s.cfg.stackDepth = some s.stack.length := beq_iff_eq

theorem exec_call_of_room {nnn : Addr} {s : State} (h : s.cfg.stackDepth ≠ some s.stack.length) :
    exec (.call nnn) s = .next ((s.push s.pc).setPc nnn) :=
  if_neg (mt (stackFull_iff s).1 h)

theorem exec_call_of_full {nnn : Addr} {s : State} (h : s.cfg.stackDepth = some s.stack.length) :
    exec (.call nnn) s = .next (faulted s .stackOverflow) :=
  if_pos ((stackFull_iff s).2 h)

/-- Settles O33: the stack is full exactly when its length is its bound. -/
theorem callPushesTheReturnAddress : Obligations.CallPushesTheReturnAddress :=
  fun nnn s => ⟨fun h => ⟨_, exec_call_of_room h, rfl, rfl, frame_pc_stack s nnn (s.pc :: s.stack) (by simp) (by simp)⟩,
    exec_call_of_full⟩

/-- Settles O35: the entry that Return pops is the one that Call pushed. -/
theorem returnUndoesCall : Obligations.ReturnUndoesCall := by
  intro nnn s t u hroom hcall hstack
  rw [exec_call_of_room hroom] at hcall
  cases hcall
  exact ⟨_, exec_ret_of_cons hstack, rfl, rfl⟩

end Sys2Proof.Proofs
end

section
/-! The moves, the logical operations, the shifts and Rand (40_alu.md R101–R106, R109, R111, R112). -/

namespace Sys2Proof.Proofs

open Sys2Proof.Machine Sys2Proof.Claims

/-- Settles O25: each is one register write. -/
theorem movesAndAddImmediateWriteOnlyVx : Obligations.MovesAndAddImmediateWriteOnlyVx := by
  intro x y nn s
  rw [← BitVec.toNat_add]
  exact ⟨writesReg_of_exec rfl, writesReg_of_exec rfl, writesReg_of_exec rfl⟩

theorem frame_setV (s : State) (x : RegIdx) (b : Byte) : Frame s (s.setV x b) (· = x) [] noByte :=
  frame_of_v rfl fun q hq => by rw [State.getV_setV, if_neg hq]

/-- Settles O26: each is one register write of a bitwise operation. -/
theorem logicalOperationsWriteOnlyVx : Obligations.LogicalOperationsWriteOnlyVx := by
  refine fun x y s => ⟨⟨_, rfl, frame_setV s x _, ?or⟩, ⟨_, rfl, frame_setV s x _, ?and⟩,
    ⟨_, rfl, frame_setV s x _, ?xor⟩⟩
  case or => simp
  case and => simp
  case xor => simp

theorem toNat_shiftRight_one (a : Byte) : (a >>> 1).toNat = a.toNat / 2 := by
  rw [BitVec.toNat_ushiftRight, Nat.shiftRight_one]

theorem toNat_shiftLeft_one (a : Byte) : (a <<< 1).toNat = a.toNat * 2 % 256 := by
  rw [BitVec.toNat_shiftLeft, Nat.shiftLeft_eq, pow_one]

theorem toNat_shiftOutLow (a : Byte) : (shiftOutLow a).toNat = a.toNat % 2 := by
  rw [shiftOutLow, BitVec.getLsbD, Nat.toNat_testBit, pow_zero, Nat.div_one]

theorem toNat_shiftOutHigh (a : Byte) : (shiftOutHigh a).toNat = a.toNat / 128 := by
  have := a.isLt
  rw [shiftOutHigh, BitVec.getLsbD, Nat.toNat_testBit]; omega

/-- Settles O30: each shift is one `WriteRF` of the shifted byte and the bit shifted out. -/
theorem shiftsWriteShiftedVxAndTheBitShiftedOut : Obligations.ShiftsWriteShiftedVxAndTheBitShiftedOut := by
  intro x y s
  rw [← toNat_shiftRight_one, ← toNat_shiftLeft_one, ← toNat_shiftOutLow, ← toNat_shiftOutHigh]
  exact ⟨writesResultAndFlag_of_exec rfl, writesResultAndFlag_of_exec rfl⟩

/-- A draw takes the host's next byte if there is one. -/
theorem drawRnd_of_cons {s : State} {b : Byte} {rest : List Byte} (h : s.rndIn = b :: rest) :
    s.drawRnd = (b, { s with rndIn := rest }) := by
  simp only [State.drawRnd, h]

/-- Else it counts one free byte. -/
theorem drawRnd_of_nil {s : State} (h : s.rndIn = []) :
    s.drawRnd = (Config.freeRnd s.rndDraws, { s with rndDraws := s.rndDraws + 1 }) := by
  simp only [State.drawRnd, h]

/-- Rand changes Vx and the store of random bytes alone. -/
theorem frame_rand (s : State) (x : RegIdx) (b : Byte) : Frame s (s.drawRnd.2.setV x b) (· = x) [.rnd] noByte := by
  rw [State.drawRnd_eq]
  exact { regs := fun q hq => by rw [State.getV_setV, if_neg hq]; rfl, mem := fun _ _ => rfl, pc := fun _ => rfl,
          i := fun _ => rfl, stack := fun _ => rfl, dt := fun _ => rfl, st := fun _ => rfl, fb := fun _ => rfl,
          rnd := (absurd List.mem_cons_self ·), keys := rfl, status := rfl, cfg := rfl, inputs := rfl }

/-- Settles O31: Rand is one draw and one register write of the masked byte. -/
theorem randMasksAFreshByte : Obligations.RandMasksAFreshByte := by
  refine fun x nn s => ⟨_, s.drawRnd.1, rfl, ?bits, ?inStore, ?free, frame_rand s x _⟩
  case bits => simp
  case inStore =>
    intro b rest h
    simp [drawRnd_of_cons h]
  case free =>
    intro h
    simp [drawRnd_of_nil h, h]

end Sys2Proof.Proofs
end

section
/-! The display instructions (42_display.md R141–R144): Clear, the same sprite drawn twice, and Draw. -/

namespace Sys2Proof.Proofs

open Sys2Proof.Machine Sys2Proof.Claims

/-- A new screen meets every other clause of the frame. -/
theorem frame_setFb (s : State) (fb : Screen) : Frame s (s.setFb fb) noReg [.screen] noByte :=
  { regs := fun _ _ => rfl, mem := fun _ _ => rfl, pc := fun _ => rfl, i := fun _ => rfl, stack := fun _ => rfl,
    dt := fun _ => rfl, st := fun _ => rfl, fb := (absurd List.mem_cons_self ·), rnd := fun _ => ⟨rfl, rfl⟩,
    keys := rfl, status := rfl, cfg := rfl, inputs := rfl }

/-- A drawing changes the screen and VF alone. -/
theorem frame_drawn (s : State) (d : Drawing) : Frame s (s.drawn d) (· = vf) [.screen] noByte :=
  { frame_setFb s d.fb with regs := fun r hr => by rw [State.getV_drawn, if_neg hr] }

/-- Settles O40: Clear is one write of the screen, with every pixel clear. -/
theorem clearResetsEveryPixel : Obligations.ClearResetsEveryPixel :=
  fun s => ⟨_, rfl, fun c r _ _ => pixel_clearScreen c r, frame_setFb s clearScreen⟩

/-- Settles O42: XOR with the same bit twice is no change, so the second drawing meets the pixels that the first
complemented under its bits of 1. -/
theorem drawingTwiceRestoresTheScreen : Obligations.DrawingTwiceRestoresTheScreen := by
  intro fb x0 y0 spr hlen
  obtain ⟨hfirst, -⟩ := screenDrawXorsTheSpriteAndDetectsCollision fb x0 y0 spr hlen
  obtain ⟨hsecond, hcollision⟩ :=
    screenDrawXorsTheSpriteAndDetectsCollision (screenDraw fb x0 y0 spr).fb x0 y0 spr hlen
  refine ⟨screen_ext fun c r hc hr => ?restored, hcollision.trans ?clear⟩
  case restored => rw [hsecond c r hc hr, hfirst c r hc hr, Bool.xor_assoc, Bool.xor_self, Bool.xor_false]
  case clear =>
    refine exists_congr fun c => exists_congr fun r => and_congr_right fun hc => and_congr_right fun hr => ?_
    refine and_congr_left fun hbit => ?_
    rw [hfirst c r hc hr, hbit, Bool.xor_true, Bool.not_eq_true']

/-! ## Draw -/

theorem readAtI_of_inBounds {s : State} {n : Nat} (h : InBounds s n) :
    s.readAtI n = .ok (bytesAt s.mem s.i.toNat n) := memRead_ok h

theorem readAtI_of_not_inBounds {s : State} {n : Nat} (h : ¬ InBounds s n) :
    s.readAtI n = .error (.memoryOutOfBounds s.i n) := by
  obtain ⟨hne, hgt⟩ := not_or.1 h
  exact memRead_error (Nat.pos_of_ne_zero hne) (Nat.not_le.1 hgt)

theorem length_bytesAt (m : Memory) (a n : Nat) : (bytesAt m a n).length = n := by
  rw [bytesAt, List.length_map, List.length_range]

/-- What Draw draws in a state. -/
def drawingOf (s : State) (x y : RegIdx) (n : Nibble) : Drawing :=
  screenDraw s.fb (s.getV x).toNat (s.getV y).toNat (bytesAt s.mem s.i.toNat n.toNat)

theorem exec_draw_of_inBounds {x y : RegIdx} {n : Nibble} {s : State} (h : InBounds s n.toNat) :
    exec (.draw x y n) s = .next (s.drawn (drawingOf s x y n)) := by
  simp only [exec, execDraw, readAtI_of_inBounds h, State.attempt_ok, drawingOf]

theorem exec_draw_of_not_inBounds {x y : RegIdx} {n : Nibble} {s : State} (h : ¬ InBounds s n.toNat) :
    exec (.draw x y n) s = .next (faulted s (.memoryOutOfBounds s.i n.toNat)) := by
  simp only [exec, execDraw, readAtI_of_not_inBounds h, State.attempt_error, raise_eq_faulted]

theorem toNat_getV_vf_drawn (s : State) (d : Drawing) : ((s.drawn d).getV vf).toNat = d.collision.toNat := by
  rw [State.getV_drawn, if_pos rfl, toNat_flagByte]

/-- Settles O43: Draw is one `ScreenDraw` of the n bytes at I, fewer than 32, and VF is its collision. -/
theorem drawXorsTheBytesAtIAndWritesCollision : Obligations.DrawXorsTheBytesAtIAndWritesCollision := by
  intro x y n s
  have hlen : (bytesAt s.mem s.i.toNat n.toNat).length ≤ 32 := by rw [length_bytesAt]; omega
  obtain ⟨hpixels, hcollision⟩ :=
    screenDrawXorsTheSpriteAndDetectsCollision s.fb (s.getV x).toNat (s.getV y).toNat _ hlen
  refine ⟨fun h => ⟨_, exec_draw_of_inBounds h, hpixels, ?flag, frame_drawn s _⟩, exec_draw_of_not_inBounds⟩
  case flag =>
    rw [toNat_getV_vf_drawn]
    cases hc : (drawingOf s x y n).collision with
    | true => exact .inl ⟨rfl, hcollision.1 hc⟩
    | false =>
      refine .inr ⟨rfl, fun c r hcol hrow hset => Bool.eq_false_iff.2 fun hbit => ?_⟩
      rw [drawingOf, hcollision.2 ⟨c, r, hcol, hrow, hset, hbit⟩] at hc
      cases hc

end Sys2Proof.Proofs
end

section
/-! WaitKey (43_timers_input.md R151; 70_reset_and_hazards.md R205): which pressed key it stores, and how it waits. -/

namespace Sys2Proof.Proofs

open Sys2Proof.Machine Sys2Proof.Claims

/-! ## The pressed keys -/

theorem key_ofNat (s : State) {j : Nat} (h : j < 16) : s.key (BitVec.ofNat 4 j) = s.keys[j] := by
  have hj : (BitVec.ofNat 4 j).toNat = j := by rw [BitVec.toNat_ofNat, Nat.mod_eq_of_lt h]
  simp only [State.key, hj]

/-- The pressed keys listed lowest first begin with the first number whose flag is set. -/
theorem head?_pressedKeys (s : State) :
    s.pressedKeys.head? = ((List.range 16).find? fun j => s.key (BitVec.ofNat 4 j)).map (BitVec.ofNat 4) := by
  rw [State.pressedKeys, List.head?_filter, List.find?_map]; rfl

/-- The first listed key is pressed, and no lower key is. -/
theorem lowest_of_head?_pressedKeys {s : State} {k : Key} (h : s.pressedKeys.head? = some k) :
    s.key k = true ∧ ∀ j (hj : j < 16), s.keys[j] = true → k.toNat ≤ j := by
  rw [head?_pressedKeys, Option.map_eq_some_iff] at h
  obtain ⟨n, hfind, rfl⟩ := h
  obtain ⟨hkey, hn, hlow⟩ := List.find?_range_eq_some.1 hfind
  refine ⟨hkey, fun j hj hset => ?_⟩
  rw [BitVec.toNat_ofNat, Nat.mod_eq_of_lt (List.mem_range.1 hn)]
  by_contra hlt
  have hclear := hlow j (Nat.lt_of_not_le hlt)
  rw [key_ofNat s hj, hset] at hclear
  cases hclear

theorem head?_pressedKeys_eq_none_iff (s : State) :
    s.pressedKeys.head? = none ↔ ∀ j (h : j < 16), s.keys[j] = false := by
  rw [head?_pressedKeys, Option.map_eq_none_iff, List.find?_eq_none]
  refine forall_congr' fun j => ?_
  rw [List.mem_range]
  refine forall_congr' fun hj => ?_
  rw [key_ofNat s hj, Bool.not_eq_true]

/-! ## The pick -/

theorem pickEntry_iff (s : State) (p : Key) : PickEntry s p ↔ lookupPick s.cfg.waitKeyPick s.keys = some p :=
  lookupPick_eq_some_iff.symm

/-- A pressed key that the table names is picked. -/
theorem pickKey_of_entry {s : State} {p : Key} (h : PickEntry s p) (hp : s.key p = true) : s.pickKey = some p := by
  rw [pickEntry_iff] at h
  simp only [State.pickKey, h, hp, if_true]

/-- Without one the pick is the lowest pressed key. -/
theorem pickKey_of_no_entry {s : State} (h : ∀ p, PickEntry s p → s.key p = false) :
    s.pickKey = s.pressedKeys.head? := by
  unfold State.pickKey
  split
  · rename_i p hp
    rw [h p ((pickEntry_iff s p).2 hp)]; rfl
  · rfl

theorem key_eq_false {s : State} (h : ∀ j (h : j < 16), s.keys[j] = false) (k : Key) : s.key k = false :=
  h k.toNat k.isLt

theorem pickKey_eq_none {s : State} (h : ∀ j (h : j < 16), s.keys[j] = false) : s.pickKey = none := by
  rw [pickKey_of_no_entry fun p _ => key_eq_false h p, (head?_pressedKeys_eq_none_iff s).2 h]

/-! ## The instruction -/

theorem exec_waitKey_of_pick {x : RegIdx} {s : State} {k : Key} (h : s.pickKey = some k) :
    exec (.waitKey x) s = .next (s.setV x (k.setWidth 8)) := by
  simp only [exec, execWaitKey, h]

theorem exec_waitKey_of_no_key {x : RegIdx} {s : State} (h : ∀ j (h : j < 16), s.keys[j] = false)
    (hpc : 2 ≤ s.pc.toNat) : exec (.waitKey x) s = .next (s.setPc (BitVec.ofNat 12 (s.pc.toNat - 2))) := by
  simp only [exec, execWaitKey, pickKey_eq_none h, addrSub_ok hpc, State.attempt_ok]

theorem toNat_keyByte (k : Key) : (k.setWidth 8 : Byte).toNat = k.toNat :=
  BitVec.toNat_setWidth_of_le (by decide)

/-- Settles O45: if the table names a pressed key, that key is the pick and the only one it names; if not, the pick is
the lowest pressed key. -/
theorem waitKeyStoresAPressedKey : Obligations.WaitKeyStoresAPressedKey := by
  intro x s hpressed
  have hstore {k : Key} (hpick : s.pickKey = some k) : exec (.waitKey x) s = .next (s.setV x (k.setWidth 8)) ∧
      ((s.setV x (k.setWidth 8)).getV x).toNat = k.toNat :=
    ⟨exec_waitKey_of_pick hpick, by rw [State.getV_setV_same, toNat_keyByte]⟩
  by_cases hentry : ∃ p, PickEntry s p ∧ s.key p = true
  · obtain ⟨p, hp, hkey⟩ := hentry
    have hpick := pickKey_of_entry hp hkey
    obtain ⟨hexec, hv⟩ := hstore hpick
    refine ⟨_, p.toNat, p.isLt, hexec, hv, hkey, fun p' hp' hkey' => ?same, fun hno => ?absurd, frame_setV s x _⟩
    case same => rw [Option.some.inj (hpick.symm.trans (pickKey_of_entry hp' hkey'))]
    case absurd => rw [hno p hp] at hkey; cases hkey
  · have hno : ∀ p, PickEntry s p → s.key p = false := fun p hp =>
      Bool.eq_false_iff.2 fun hkey => hentry ⟨p, hp, hkey⟩
    obtain ⟨k, hhead⟩ : ∃ k, s.pressedKeys.head? = some k := by
      refine Option.ne_none_iff_exists'.1 fun hnone => ?_
      obtain ⟨j, hj, hset⟩ := hpressed
      rw [(head?_pressedKeys_eq_none_iff s).1 hnone j hj] at hset
      cases hset
    obtain ⟨hkey, hlow⟩ := lowest_of_head?_pressedKeys hhead
    obtain ⟨hexec, hv⟩ := hstore ((pickKey_of_no_entry hno).trans hhead)
    exact ⟨_, k.toNat, k.isLt, hexec, hv, hkey, fun p hp hkey' => absurd ⟨p, hp, hkey'⟩ hentry, fun _ => hlow,
      frame_setV s x _⟩

/-- Settles O46: with no key to pick, WaitKey is one `AddrSub` of 2 from PC. -/
theorem waitKeyWithoutAKeyRewindsPc : Obligations.WaitKeyWithoutAKeyRewindsPc := by
  intro x s hnone hpc
  refine ⟨_, exec_waitKey_of_no_key hnone hpc, ?_, frame_setPc s _⟩
  rw [State.setPc_pc, toNat_addrOfNat (by omega), Nat.sub_add_cancel hpc]

/-- Settles O47: the fetch takes PC two further, and WaitKey two back. -/
theorem waitingCoreStepsToItself : Obligations.WaitingCoreStepsToItself := by
  intro s x hrun hin hnone hpc hdecode
  have hfetched : (s.setPc (s.pc + 2#12)).pc.toNat = s.pc.toNat + 2 := toNat_pc_add_two hpc
  rw [step_eq_instrStep_self hrun hin, instrStep_of_decode_ok hpc hdecode,
    exec_waitKey_of_no_key (s := s.setPc (s.pc + 2#12)) hnone (by omega),
    hfetched, Nat.add_sub_cancel, BitVec.ofNat_toNat, BitVec.setWidth_eq]
  rfl

end Sys2Proof.Proofs
end

section
/-! The outputs (60_exceptions.md R170, R186): pixels, tone and status code. -/

namespace Sys2Proof.Proofs

open Sys2Proof.Machine

/-- Bit r × 64 + c of the output is column c of row r. -/
theorem getElem?_pixelsOut (s : State) {c r : Nat} (hc : c < 64) (hr : r < 32) :
    (pixelsOut s)[r * 64 + c]? = some (pixel s.fb c r) := by
  have hlt : r * 64 + c < 2048 := by omega
  have hcol : (r * 64 + c) % 64 = c := by omega
  have hrow : (r * 64 + c) / 64 = r := by omega
  rw [pixelsOut, List.getElem?_map, List.getElem?_range hlt, Option.map_some, hcol, hrow]

theorem statusCode_of_running {s : State} (h : s.status = .running) : statusCode s = 0 := by rw [statusCode, h]

theorem statusCode_of_faulted {s : State} {e : FaultInfo} {a : Addr} (h : s.status = .faulted e a) :
    statusCode s = e.code := by rw [statusCode, h]

/-- Settles O50: the status code of a Faulted core is the code of the fault that its status records. -/
theorem outputsShowTheState : Obligations.OutputsShowTheState := fun s =>
  ⟨fun _ _ hc hr => ⟨getElem?_pixelsOut s hc hr, rfl⟩, soundActive_iff s, statusCode_of_running,
    fun _ _ => statusCode_of_faulted, fun _ _ _ => statusCode_of_faulted, fun _ _ => statusCode_of_faulted,
    fun _ => statusCode_of_faulted, fun _ => statusCode_of_faulted, fun _ _ => statusCode_of_faulted, fun _ => rfl⟩

end Sys2Proof.Proofs
end

section
/-! The index register and the memory instructions (44_index_memory.md R160–R162, R164, R165; 20_memory.md R62): what I
becomes, and which registers and bytes Store and Load copy. -/

namespace Sys2Proof.Proofs

open Sys2Proof.Machine Sys2Proof.Claims

/-! ## The index register -/

theorem frame_setI (s : State) (a : Addr) : Frame s (s.setI a) noReg [.i] noByte :=
  { regs := fun _ _ => rfl, mem := fun _ _ => rfl, pc := fun _ => rfl, i := (absurd List.mem_cons_self ·),
    stack := fun _ => rfl, dt := fun _ => rfl, st := fun _ => rfl, fb := fun _ => rfl, rnd := fun _ => ⟨rfl, rfl⟩,
    keys := rfl, status := rfl, cfg := rfl, inputs := rfl }

/-- A glyph's address for a byte Vx, not masked, lies inside 0x000–0xFFF (D6). -/
theorem spriteAddr_le (b : Byte) : fontBase + b.toNat * 5 ≤ 0xFFF := by
  have := b.isLt
  unfold fontBase; omega

theorem exec_setSprite (x : RegIdx) (s : State) :
    exec (.setSprite x) s = .next (s.setI (BitVec.ofNat 12 (fontBase + (s.getV x).toNat * 5))) := by
  have hadd : addrAdd (BitVec.ofNat 12 fontBase) ((s.getV x).toNat * 5) = _ := addrAdd_ok (spriteAddr_le _)
  simp only [exec, execSetSprite, hadd, State.attempt_ok]; rfl

/-- Settles O51: SetIdx cannot fault, and SetSprite's `AddrAdd` never does. -/
theorem setIdxAndSetSpriteWriteOnlyI : Obligations.SetIdxAndSetSpriteWriteOnlyI :=
  fun x nnn s => ⟨⟨_, rfl, rfl, frame_setI s nnn⟩,
    _, exec_setSprite x s, toNat_addrOfNat (spriteAddr_le (s.getV x)), frame_setI s _⟩

theorem exec_addIdx_of_le {x : RegIdx} {s : State} (h : s.i.toNat + (s.getV x).toNat ≤ 0xFFF) :
    exec (.addIdx x) s = .next (s.setI (BitVec.ofNat 12 (s.i.toNat + (s.getV x).toNat))) := by
  simp only [exec, execAddIdx, addrAdd_ok h, State.attempt_ok]

theorem exec_addIdx_of_gt {x : RegIdx} {s : State} (h : 0xFFF < s.i.toNat + (s.getV x).toNat) :
    exec (.addIdx x) s = .next (faulted s (.addressOverflow (s.i.toNat + (s.getV x).toNat : Nat))) := by
  simp only [exec, execAddIdx, addrAdd_error h, State.attempt_error, raise_eq_faulted]

/-- Settles O52: AddIdx is one `AddrAdd`, and a sum in 0x000–0xFFF is its own 12-bit value. -/
theorem addIdxAddsWithoutWrapping : Obligations.AddIdxAddsWithoutWrapping :=
  fun _ s => ⟨fun h => ⟨_, exec_addIdx_of_le h, toNat_addrOfNat h, frame_setI s _⟩, exec_addIdx_of_gt⟩

/-! ## Store -/

@[simp] theorem length_regsUpTo (s : State) (x : RegIdx) : (s.regsUpTo x).length = x.toNat + 1 := by
  rw [State.regsUpTo, List.length_map, List.length_range]

theorem getElem_regsUpTo (s : State) (x k : RegIdx) (h : k.toNat < (s.regsUpTo x).length) :
    (s.regsUpTo x)[k.toNat] = s.getV k := by
  simp [State.regsUpTo]

/-- The state after V0..Vx were written at I. -/
def stored (s : State) (x : RegIdx) : State := withBytesAtI s (s.regsUpTo x)

theorem exec_store_of_inBounds {x : RegIdx} {s : State} (h : InBounds s (x.toNat + 1)) :
    exec (.store x) s = .next (stored s x) :=
  attempt_writeAtI_of_inBounds (by rwa [length_regsUpTo])

theorem exec_store_of_not_inBounds {x : RegIdx} {s : State} (h : ¬ InBounds s (x.toNat + 1)) :
    exec (.store x) s = .next (faulted s (.memoryOutOfBounds s.i (x.toNat + 1))) := by
  rw [← length_regsUpTo s x] at h ⊢
  exact attempt_writeAtI_of_not_inBounds h

theorem readByte_stored (s : State) {x k : RegIdx} (h : k.toNat ≤ x.toNat) :
    (stored s x).mem.readByte (s.i.toNat + k.toNat) = s.getV k := by
  have hk : k.toNat < (s.regsUpTo x).length := by rw [length_regsUpTo]; omega
  rw [stored, readByte_withBytesAtI s hk, getElem_regsUpTo]

theorem frame_stored (s : State) (x : RegIdx) : Frame s (stored s x) noReg []
    (fun a => s.i.toNat ≤ a ∧ a < s.i.toNat + (x.toNat + 1)) := by
  rw [← length_regsUpTo s x]
  exact frame_withBytesAtI s _

/-- Settles O54: Store is one write at I of the x + 1 registers V0..Vx. -/
theorem storeWritesRegistersUpToVx : Obligations.StoreWritesRegistersUpToVx :=
  fun x s => ⟨fun h => ⟨_, exec_store_of_inBounds h, fun _ => readByte_stored s, frame_stored s x⟩,
    exec_store_of_not_inBounds⟩

/-- Settles O56: the fetch reads the two bytes that Store has written last. -/
theorem storedBytesAreFetchedNext : Obligations.StoredBytesAreFetchedNext := by
  intro x s t hx hin hi hexec
  rw [exec_store_of_inBounds (.inr hin)] at hexec
  cases hexec
  have hhigh : (stored s x).mem.readByte s.i.toNat = s.getV 0x0#4 := readByte_stored s (k := 0x0#4) (Nat.zero_le _)
  have hlow : (stored s x).mem.readByte (s.i.toNat + 1) = s.getV 0x1#4 := readByte_stored s (k := 0x1#4) hx
  rw [fetch_ok (s := (stored s x).setPc s.i) hi, State.setPc_pc, State.setPc_mem, hhigh, hlow]

/-! ## Load -/

/-- The state after V0..Vx were read from I. -/
def loaded (s : State) (x : RegIdx) : State := s.setVFrom 0 (bytesAt s.mem s.i.toNat (x.toNat + 1))

theorem exec_load_of_inBounds {x : RegIdx} {s : State} (h : InBounds s (x.toNat + 1)) :
    exec (.load x) s = .next (loaded s x) := by
  simp only [exec, execLoad, readAtI_of_inBounds h, State.attempt_ok, loaded]

theorem exec_load_of_not_inBounds {x : RegIdx} {s : State} (h : ¬ InBounds s (x.toNat + 1)) :
    exec (.load x) s = .next (faulted s (.memoryOutOfBounds s.i (x.toNat + 1))) := by
  simp only [exec, execLoad, readAtI_of_not_inBounds h, State.attempt_error, raise_eq_faulted]

theorem getV_loaded (s : State) (x r : RegIdx) :
    (loaded s x).getV r = if r.toNat ≤ x.toNat then s.mem.readByte (s.i.toNat + r.toNat) else s.getV r := by
  have hlen : 0 + (bytesAt s.mem s.i.toNat (x.toNat + 1)).length ≤ 16 := by rw [length_bytesAt]; omega
  rw [loaded, State.getV_setVFrom s 0 _ hlen, if_pos (Nat.zero_le _), Nat.sub_zero]
  split
  · rename_i h
    rw [List.getD_eq_getElem _ _ (by rw [length_bytesAt]; omega)]
    simp [bytesAt]
  · rename_i h
    exact List.getD_eq_default _ _ (by rw [length_bytesAt]; omega)

theorem frame_loaded (s : State) (x : RegIdx) : Frame s (loaded s x) (fun r => r.toNat ≤ x.toNat) [] noByte :=
  frame_of_v (s.setVFrom_eq ..) fun q hq => by rw [getV_loaded, if_neg hq]

/-- Settles O55: Load is one read at I of x + 1 bytes into V0..Vx. -/
theorem loadReadsRegistersUpToVx : Obligations.LoadReadsRegistersUpToVx :=
  fun x s => ⟨fun h => ⟨_, exec_load_of_inBounds h, fun k hk => by rw [getV_loaded, if_pos hk], frame_loaded s x⟩,
    exec_load_of_not_inBounds⟩

end Sys2Proof.Proofs
end

section
/-! The memory as data (20_memory.md R50, R54, R59): words and bytes read back, and the canonical form is one to one. -/

namespace Sys2Proof.Proofs

open Sys2Proof.Machine

/-- Settles O3: `write16` is a write of the word's two bytes, high byte first, and `read16` puts them together
again. -/
theorem writtenWordsAndBytesReadBack : Obligations.WrittenWordsAndBytesReadBack := by
  intro m a w b
  have hlen : [wordHi w, wordLo w].length = 2 := rfl
  refine ⟨fun h => ⟨_, memWrite_ok (bs := [wordHi w, wordLo w]) (.inr (by omega)), ?read⟩,
    fun h => memWrite_error (bs := [wordHi w, wordLo w]) (by omega) (by omega), ?byte⟩
  case read =>
    have hbyte {k : Nat} (hk : k < 2) := Memory.readByte_writeBytes_inside m a.toNat k (hlen.symm ▸ hk)
    have hhigh := hbyte (k := 0) (by decide)
    rw [Nat.add_zero] at hhigh
    rw [memRead16_ok h, hhigh, hbyte (by decide)]
    exact congrArg Except.ok (wordOf_bytes w)
  case byte => rw [memRead8, memWrite8, Memory.readByte_writeByte, if_pos rfl]

/-- In a memory with rising addresses a listed cell is what its address reads as. -/
theorem readByte_of_mem {m : Memory} (hm : m.Pairwise fun c d => c.1 < d.1) {c : Host.Cell} (hc : c ∈ m) :
    m.readByte c.1 = c.2 := by
  induction m with
  | nil => cases hc
  | cons d m ih =>
    obtain ⟨hfirst, hrest⟩ := List.pairwise_cons.1 hm
    obtain rfl | hc := List.mem_cons.1 hc
    · exact if_pos rfl
    · rw [← ih hrest hc]
      exact if_neg (Nat.ne_of_gt (hfirst c hc))

/-- An address that does not read as the background is listed. -/
theorem mem_of_readByte_ne_background {m : Memory} {a : Nat} (h : m.readByte a ≠ Memory.background a) :
    (a, m.readByte a) ∈ m := by
  induction m with
  | nil => exact absurd rfl h
  | cons d m ih =>
    obtain ⟨a', b⟩ := d
    unfold Memory.readByte at h ⊢
    split
    · rename_i heq; rw [heq]; exact List.mem_cons_self
    · rename_i hne
      rw [if_neg hne] at h
      exact List.mem_cons_of_mem _ (ih h)

/-- The cells of a canonical memory are its addresses that do not read as the background, each with its byte. -/
theorem mem_iff_of_wf {m : Memory} (hm : m.wf) (c : Host.Cell) :
    c ∈ m ↔ m.readByte c.1 = c.2 ∧ c.2 ≠ Memory.background c.1 := by
  obtain ⟨hsorted, hcells⟩ := hm
  constructor
  · intro hc
    exact ⟨readByte_of_mem hsorted hc, (hcells c hc).2⟩
  · rintro ⟨hread, hne⟩
    have hmem := mem_of_readByte_ne_background (m := m) (a := c.1) (by rwa [hread])
    rwa [hread] at hmem

/-- Settles O4: canonical memories that read the same list the same cells, and in the same order. -/
theorem equalReadsMeanEqualMemories : Obligations.EqualReadsMeanEqualMemories := by
  intro m m' hm hm' hread
  have : Std.Irrefl fun c d : Host.Cell => c.1 < d.1 := ⟨fun c => Nat.lt_irrefl c.1⟩
  have : Std.Antisymm fun c d : Host.Cell => c.1 < d.1 := ⟨fun _ _ h h' => absurd h (Nat.lt_asymm h')⟩
  refine List.Pairwise.eq_of_mem_iff hm.1 hm'.1 fun c => ?_
  rw [mem_iff_of_wf hm, mem_iff_of_wf hm', hread]

end Sys2Proof.Proofs
end

section
/-! Construction and reset (70_reset_and_hazards.md R201; 10_state.md R32, R39). -/

namespace Sys2Proof.Proofs

open Sys2Proof.Machine Sys2Proof.Claims

/-- Outside the font an unlisted address reads as 0x00. -/
theorem background_of_outside_font {a : Nat} (h : a < 0x050 ∨ 0x0A0 ≤ a) : Memory.background a = 0x00#8 := by
  unfold Memory.background fontBase
  split
  · have hlen : (fontLow ++ fontHigh).length = 80 := rfl
    exact List.getD_eq_default _ _ (by omega)
  · rfl

theorem wf_resetMemory (l : List (Addr × Byte)) : (resetMemory l).wf := by
  induction l with
  | nil => exact Memory.wf_nil
  | cons c l ih => exact Memory.wf_writeByte ih (Nat.le_of_lt_succ c.1.isLt) c.2

/-- The listed bytes of `RESET_MEM` are written last to first, so the first listed for an address stays. -/
theorem readByte_resetMemory (l : List (Addr × Byte)) {a : Nat} (h : a < 0x050 ∨ 0x0A0 ≤ a) :
    (resetMemory l).readByte a = resetByte l a := by
  induction l with
  | nil => exact background_of_outside_font h
  | cons c l ih => rw [resetMemory, Memory.readByte_writeByte, ih, resetByte]

section constructed
variable (p : ResetParams) {rom : List Byte}

theorem readByte_constructMemory_rom {k : Nat} (h : k < rom.length) :
    (constructMemory p rom).readByte (0x200 + k) = rom[k] :=
  Memory.readByte_writeBytes_inside _ programBase k h

theorem readByte_constructMemory_font {k : Nat} (h : k < 80) :
    (constructMemory p rom).readByte (0x050 + k) = p.font[k] := by
  have hk : k < p.font.toList.length := by rwa [Vector.length_toList]
  rw [constructMemory, Memory.readByte_writeBytes_outside _ (.inl (by unfold programBase; omega))]
  exact (Memory.readByte_writeBytes_inside _ fontBase k hk).trans (Vector.getElem_toList hk)

theorem readByte_constructMemory_elsewhere {a : Nat} (hfont : a < 0x050 ∨ 0x0A0 ≤ a)
    (hrom : a < 0x200 ∨ 0x200 + rom.length ≤ a) : (constructMemory p rom).readByte a = resetByte p.mem a := by
  rw [constructMemory, Memory.readByte_writeBytes_outside (a := programBase) _ hrom,
    Memory.readByte_writeBytes_outside (a := fontBase) _ (by rwa [Vector.length_toList]), readByte_resetMemory _ hfont]

theorem wf_constructMemory (h : rom.length ≤ 3584) : (constructMemory p rom).wf := by
  have hfont : fontBase + p.font.toList.length - 1 ≤ topAddr := by rw [Vector.length_toList]; decide
  refine Memory.wf_writeBytes (Memory.wf_writeBytes (wf_resetMemory p.mem) (.inr hfont)) ?_
  unfold programBase topAddr; omega

end constructed

/-- Settles O57: the font lies below the ROM, so each of the three writes of construction stays where no later one
reaches. -/
theorem constructLoadsFontAndRomOrRejects : Obligations.ConstructLoadsFontAndRomOrRejects := by
  refine fun c p rom => ⟨fun h => ⟨_, if_neg (Nat.not_lt.2 h), fun _ => readByte_constructMemory_rom p,
    fun _ => readByte_constructMemory_font p, fun a _ => readByte_constructMemory_elsewhere p, wf_constructMemory p h,
    rfl, rfl, pixel_clearScreen, rfl, rfl, rfl, rfl, rfl, rfl, rfl⟩, fun h => if_pos h⟩

/-- With the defaults construction writes what every address reads as already, so no cell is listed. -/
theorem construct_default : construct configDefault resetDefault [] = .ok State.reset := by decide

/-- Settles O58: reset lists no cell, so its memory reads as the background. -/
theorem resetIsDefaultConstruction : Obligations.ResetIsDefaultConstruction :=
  ⟨construct_default, rfl, by decide, rfl, rfl, rfl, rfl, by decide, rfl, pixel_clearScreen, by decide,
    fun _ _ => background_of_outside_font, rfl, rfl, rfl⟩

end Sys2Proof.Proofs
end

section
/-! The fault table (60_exceptions.md R171): which fault the execute phase of each instruction raises, and that it
raises no other. -/

namespace Sys2Proof.Proofs

open Sys2Proof.Machine Sys2Proof.Claims

/-- The answer r to the state s is the fault that F lists; where F lists none, and s follows a fetch, it leaves the
status alone. -/
def RaisesExactly (F : FaultInfo → Prop) (s : State) (r : Result) : Prop :=
  (∀ e, F e → r = .next (faulted s e)) ∧
  (2 ≤ s.pc.toNat → (∀ e, ¬ F e) → ∃ t, r = .next t ∧ t.status = s.status)

section raisesExactly
variable {s : State} {r : Result} {F : FaultInfo → Prop}

theorem RaisesExactly.next {t : State} (ht : t.status = s.status) : RaisesExactly (fun _ => False) s (.next t) :=
  ⟨fun _ => False.elim, fun _ _ => ⟨t, rfl, ht⟩⟩

/-- An operation that faults on P alone, and then with e₀. -/
theorem RaisesExactly.of_fault_iff {P : Prop} {e₀ : FaultInfo} (hfault : P → r = .next (faulted s e₀))
    (hok : ¬ P → ∃ t, r = .next t ∧ t.status = s.status) : RaisesExactly (fun e => P ∧ e = e₀) s r :=
  ⟨fun _ ⟨hP, he⟩ => he ▸ hfault hP, fun _ hno => hok fun hP => hno e₀ ⟨hP, rfl⟩⟩

theorem RaisesExactly.congr {F' : FaultInfo → Prop} (h : RaisesExactly F s r) (hF : ∀ e, F' e ↔ F e) :
    RaisesExactly F' s r := by
  rwa [(funext fun e => propext (hF e) : F' = F)]

/-- A skip faults iff its condition holds and the address after the next word is above 0xFFF. -/
theorem RaisesExactly.skipIf {b : Bool} {c : Prop} (hc : b = true ↔ c) :
    RaisesExactly (fun e => c ∧ 0xFFD < s.pc.toNat ∧ e = .addressOverflow (s.pc.toNat + 2 : Nat)) s (s.skipIf b) := by
  obtain rfl := propext hc
  refine (RaisesExactly.of_fault_iff (P := b = true ∧ 0xFFD < s.pc.toNat) ?fault ?ok).congr fun e => and_assoc.symm
  case fault =>
    rintro ⟨rfl, hpc⟩
    exact State.skipIf_fault hpc
  case ok =>
    intro hno
    cases b with
    | false => exact ⟨s, State.skipIf_false s, rfl⟩
    | true => exact ⟨_, State.skipIf_true (Nat.le_of_not_lt fun hpc => hno ⟨rfl, hpc⟩), rfl⟩

/-- A skip on a key faults on a value above 0xF, else as the skip on that key's flag. -/
theorem RaisesExactly.keySkip {x : RegIdx} {want : Bool}
    (hlt : (h : (s.getV x).toNat < 16) → ∃ b, r = s.skipIf b ∧ (b = true ↔ s.keys[(s.getV x).toNat] = want))
    (hgt : 0xF < (s.getV x).toNat → r = .next (faulted s (.invalidKey (s.getV x)))) :
    RaisesExactly (fun e => (0xF < (s.getV x).toNat ∧ e = .invalidKey (s.getV x)) ∨
      (s.keys[(s.getV x).toNat]? = some want ∧ 0xFFD < s.pc.toNat ∧
        e = .addressOverflow (s.pc.toNat + 2 : Nat))) s r := by
  rcases Nat.lt_or_ge (s.getV x).toNat 16 with h | h
  · obtain ⟨b, rfl, hb⟩ := hlt h
    refine (RaisesExactly.skipIf hb).congr fun e => ?_
    rw [Vector.getElem?_eq_getElem h, Option.some.injEq, or_iff_right fun hbad => Nat.not_lt.2 hbad.1 h]
  · refine (RaisesExactly.of_fault_iff hgt fun hno => absurd h hno).congr fun e => ?_
    rw [Vector.getElem?_eq_none h, or_iff_left fun hpressed => nomatch hpressed.1]

end raisesExactly

/-- The fault table holds of every instruction. -/
theorem exec_raisesExactly (i : Instr) (s : State) : RaisesExactly (FaultsWith i s) s (exec i s) := by
  cases i with
  | clear | jump | setNum | addNum | set | or | and | xor | getDelay | setIdx | setDelay | setSound => exact .next rfl
  | add | sub | subb | shr | shl => exact .next (frame_writeRF ..).status
  | rand => exact .next (frame_rand ..).status
  | setSprite x => rw [exec_setSprite]; exact .next rfl
  | eqNum | eq => exact .skipIf beq_iff_eq
  | neqNum | neq => exact .skipIf bne_iff_ne
  | keyEq => exact .keySkip (fun h => ⟨_, exec_keyEq_of_lt h, Iff.rfl⟩) exec_keyEq_of_gt
  | keyNeq => exact .keySkip (fun h => ⟨_, exec_keyNeq_of_lt h, (Bool.not_eq_true' _).to_iff⟩) exec_keyNeq_of_gt
  | call => exact .of_fault_iff exec_call_of_full fun h => ⟨_, exec_call_of_room h, rfl⟩
  | ret =>
    refine .of_fault_iff exec_ret_of_nil fun h => ?_
    obtain ⟨a, rest, hcons⟩ := List.exists_cons_of_ne_nil h
    exact ⟨_, exec_ret_of_cons hcons, rfl⟩
  | jumpV0 => exact .of_fault_iff exec_jumpV0_of_gt fun h => ⟨_, exec_jumpV0_of_le (Nat.le_of_not_lt h), rfl⟩
  | addIdx => exact .of_fault_iff exec_addIdx_of_gt fun h => ⟨_, exec_addIdx_of_le (Nat.le_of_not_lt h), rfl⟩
  | draw => exact .of_fault_iff exec_draw_of_not_inBounds fun h => ⟨_, exec_draw_of_inBounds (not_not.1 h), rfl⟩
  | storeBcd =>
    exact .of_fault_iff exec_storeBcd_of_not_inBounds fun h => ⟨_, exec_storeBcd_of_inBounds (not_not.1 h), rfl⟩
  | store => exact .of_fault_iff exec_store_of_not_inBounds fun h => ⟨_, exec_store_of_inBounds (not_not.1 h), rfl⟩
  | load =>
    exact .of_fault_iff exec_load_of_not_inBounds fun h =>
      ⟨_, exec_load_of_inBounds (not_not.1 h), (frame_loaded ..).status⟩
  | waitKey x =>
    refine ⟨fun _ => False.elim, fun hpc _ => ?_⟩
    simp only [exec, execWaitKey]
    split
    · exact ⟨_, rfl, rfl⟩
    · rw [addrSub_ok hpc]
      exact ⟨_, rfl, rfl⟩

/-- Settles O15: the fault table, read for each instruction. -/
theorem executePhaseFaultsExactlyWhereListed : Obligations.ExecutePhaseFaultsExactlyWhereListed := exec_raisesExactly

end Sys2Proof.Proofs
end

section
/-! Which instruction changes which state (10_state.md R25, R30–R34; 20_memory.md R56): one frame for each instruction,
from which the lists of writers are read. -/

namespace Sys2Proof.Proofs

open Sys2Proof.Machine Sys2Proof.Claims

/-! ## The frame of every instruction -/

/-- The parts of the state that an instruction may write, besides registers and memory. -/
def writesParts : Instr → List Part
  | .jump _ | .jumpV0 _ | .eqNum _ _ | .neqNum _ _ | .eq _ _ | .neq _ _ | .keyEq _ | .keyNeq _ | .waitKey _ => [.pc]
  | .call _ | .ret => [.pc, .stack]
  | .setIdx _ | .addIdx _ | .setSprite _ => [.i]
  | .setDelay _ => [.dt]
  | .setSound _ => [.st]
  | .clear | .draw _ _ _ => [.screen]
  | .rand _ _ => [.rnd]
  | .setNum _ _ | .addNum _ _ | .set _ _ | .or _ _ | .and _ _ | .xor _ _ | .add _ _ | .sub _ _ | .subb _ _ | .shr _ _
  | .shl _ _ | .getDelay _ | .storeBcd _ | .store _ | .load _ => []

/-- A frame that lists more holds too. -/
theorem frame_mono {s t : State} {regs regs' : RegIdx → Prop} {parts parts' : List Part} {bytes bytes' : Nat → Prop}
    (h : Frame s t regs parts bytes) (hregs : ∀ r, regs r → regs' r) (hparts : parts ⊆ parts')
    (hbytes : ∀ a, bytes a → bytes' a) : Frame s t regs' parts' bytes' :=
  { h with
    regs := fun r hr => h.regs r (mt (hregs r) hr), mem := fun a ha => h.mem a (mt (hbytes a) ha),
    pc := fun hp => h.pc (mt (@hparts _) hp), i := fun hp => h.i (mt (@hparts _) hp),
    stack := fun hp => h.stack (mt (@hparts _) hp), dt := fun hp => h.dt (mt (@hparts _) hp),
    st := fun hp => h.st (mt (@hparts _) hp), fb := fun hp => h.fb (mt (@hparts _) hp),
    rnd := fun hp => h.rnd (mt (@hparts _) hp) }

/-- The answer r of the instruction i to the state s is a fault, or it meets the frame of what i may write. -/
def FaultsOrFrames (i : Instr) (s : State) (r : Result) : Prop :=
  ∀ t, r = .next t → (∃ e, t = faulted s e) ∨ Frame s t (writesRegs i) (writesParts i) (writesBytes s i)

section faultsOrFrames
variable {i : Instr} {s : State}

theorem FaultsOrFrames.next {t : State} (h : Frame s t (writesRegs i) (writesParts i) (writesBytes s i)) :
    FaultsOrFrames i s (.next t) := by
  rintro _ ⟨⟩; exact .inr h

theorem FaultsOrFrames.fault (e : FaultInfo) : FaultsOrFrames i s (.next (faulted s e)) := by
  rintro _ ⟨⟩; exact .inl ⟨e, rfl⟩

theorem FaultsOrFrames.attempt {α : Type} {r : Except FaultInfo α} {k : α → State}
    (hk : ∀ a, Frame s (k a) (writesRegs i) (writesParts i) (writesBytes s i)) :
    FaultsOrFrames i s (s.attempt r k) := by
  cases r with
  | ok a => exact .next (hk a)
  | error e => exact .fault e

/-- A frame that lists PC holds of a write of PC. -/
theorem frame_setPc_of_mem (a : Addr) (hpc : Part.pc ∈ writesParts i) :
    Frame s (s.setPc a) (writesRegs i) (writesParts i) (writesBytes s i) :=
  frame_mono (frame_setPc s a) (fun _ => False.elim) (by simpa using hpc) (fun _ => False.elim)

theorem FaultsOrFrames.skipIf (hpc : Part.pc ∈ writesParts i) (c : Bool) : FaultsOrFrames i s (s.skipIf c) := by
  cases c with
  | false => exact .next (frame_setPc_of_mem s.pc hpc)
  | true => exact .attempt fun a => frame_setPc_of_mem a hpc

end faultsOrFrames

theorem exec_faultsOrFrames (i : Instr) (s : State) : FaultsOrFrames i s (exec i s) := by
  cases i with
  | setNum | addNum | set | or | and | xor | getDelay => exact .next (frame_setV ..)
  | add | sub | subb | shr | shl => exact .next (frame_writeRF ..)
  | rand => exact .next (frame_rand ..)
  | clear => exact .next (frame_setFb ..)
  | draw => exact .attempt fun _ => frame_drawn ..
  | jump nnn => exact .next (frame_setPc s nnn)
  | jumpV0 => exact .attempt fun a => frame_setPc s a
  | eqNum | neqNum | eq | neq => exact .skipIf (by simp [writesParts]) _
  | keyEq x | keyNeq x =>
    simp only [exec, execKeyEq, execKeyNeq]
    split
    · exact .skipIf (by simp [writesParts]) _
    · exact .fault _
  | waitKey x =>
    simp only [exec, execWaitKey]
    split
    · exact .next (frame_mono (frame_setV ..) (fun _ => id) (List.nil_subset _) fun _ => id)
    · exact .attempt fun a => frame_setPc_of_mem a (by simp [writesParts])
  | call nnn =>
    simp only [exec, execCall]
    split
    · exact .fault _
    · exact .next (frame_pc_stack s nnn (s.pc :: s.stack) (by simp [writesParts]) (by simp [writesParts]))
  | ret =>
    simp only [exec, execReturn]
    split
    · exact .fault _
    · exact .next (frame_pc_stack s _ _ (by simp [writesParts]) (by simp [writesParts]))
  | setIdx => exact .next (frame_setI ..)
  | addIdx | setSprite => exact .attempt fun a => frame_setI s a
  | setDelay x => exact .next (frame_timers s (s.getV x) s.st (by simp [writesParts]) fun _ => rfl)
  | setSound x => exact .next (frame_timers s s.dt (s.getV x) (fun _ => rfl) (by simp [writesParts]))
  | storeBcd x =>
    by_cases h : InBounds s 3
    · rw [exec_storeBcd_of_inBounds h]; exact .next (frame_withBytesAtI s _)
    · rw [exec_storeBcd_of_not_inBounds h]; exact .fault _
  | store x =>
    by_cases h : InBounds s (x.toNat + 1)
    · rw [exec_store_of_inBounds h]; exact .next (frame_stored s x)
    · rw [exec_store_of_not_inBounds h]; exact .fault _
  | load x =>
    by_cases h : InBounds s (x.toNat + 1)
    · rw [exec_load_of_inBounds h]; exact .next (frame_loaded s x)
    · rw [exec_load_of_not_inBounds h]; exact .fault _

/-- Apart from PC and the status, which a fault writes too, an instruction changes only what it may write. -/
theorem exec_frame {i : Instr} {s t : State} (h : exec i s = .next t) :
    ∃ pc, Frame s { t with pc := pc, status := s.status } (writesRegs i) (writesParts i) (writesBytes s i) := by
  obtain ⟨e, rfl⟩ | hframe := exec_faultsOrFrames i s t h
  · exact ⟨s.pc, frame_mono (frame_refl s) (fun _ => False.elim) (List.nil_subset _) (fun _ => False.elim)⟩
  · refine ⟨t.pc, ?_⟩
    rw [← hframe.status]
    exact hframe

/-! ## The lists of writers -/

/-- Settles O19: a register that changes is not outside the frame's. -/
theorem registersHaveOnlyTheirListedWriters : Obligations.RegistersHaveOnlyTheirListedWriters := by
  intro i s t r h hchanged
  obtain ⟨pc, hframe⟩ := exec_frame h
  exact not_imp_comm.1 (hframe.regs r) hchanged

/-- Settles O20: a byte that changes is not outside the frame's. -/
theorem memoryHasOnlyItsListedWriters : Obligations.MemoryHasOnlyItsListedWriters := by
  intro i s t a h hchanged
  obtain ⟨pc, hframe⟩ := exec_frame h
  exact not_imp_comm.1 (hframe.mem a) hchanged

theorem stack_mem_writesParts {i : Instr} (h : Part.stack ∈ writesParts i) : i = .ret ∨ ∃ a, i = .call a := by
  cases i <;> simp_all [writesParts]

theorem i_mem_writesParts {i : Instr} (h : Part.i ∈ writesParts i) :
    (∃ a, i = .setIdx a) ∨ (∃ x, i = .addIdx x) ∨ ∃ x, i = .setSprite x := by
  cases i <;> simp_all [writesParts]

theorem dt_mem_writesParts {i : Instr} (h : Part.dt ∈ writesParts i) : ∃ x, i = .setDelay x := by
  cases i <;> simp_all [writesParts]

theorem st_mem_writesParts {i : Instr} (h : Part.st ∈ writesParts i) : ∃ x, i = .setSound x := by
  cases i <;> simp_all [writesParts]

/-- Settles O22: a part that changes is listed in the frame of the instruction. -/
theorem stackIndexAndTimersHaveOnlyTheirListedWriters :
    Obligations.StackIndexAndTimersHaveOnlyTheirListedWriters := by
  intro i s t h
  obtain ⟨pc, hframe⟩ := exec_frame h
  exact ⟨fun hne => stack_mem_writesParts (not_imp_comm.1 hframe.stack hne),
    fun hne => i_mem_writesParts (not_imp_comm.1 hframe.i hne),
    fun hne => dt_mem_writesParts (not_imp_comm.1 hframe.dt hne),
    fun hne => st_mem_writesParts (not_imp_comm.1 hframe.st hne)⟩

end Sys2Proof.Proofs
end

section
/-! What instructions do not read (10_state.md R33, R34): the key flags, but for the three key instructions, and the
sound timer.  Both follow from one commuting lemma for new values of the two. -/

namespace Sys2Proof.Proofs

open Sys2Proof.Machine Sys2Proof.Claims

/-- The state under other key flags and another sound timer. -/
def withKeysSt (ks : KeyFlags) (b : Byte) (s : State) : State := { s with keys := ks, st := b }

section withKeysSt
variable (ks : KeyFlags) (b : Byte) (s : State)

theorem writeRF_withKeysSt (op : FlagOp) (x : RegIdx) (r : Byte) (f : Bool) :
    (withKeysSt ks b s).writeRF op x r f = withKeysSt ks b (s.writeRF op x r f) := by
  simp only [State.writeRF, withKeysSt]
  cases destOrder s.cfg op <;> rfl

theorem setVFrom_withKeysSt (k : Nat) (bs : List Byte) :
    (withKeysSt ks b s).setVFrom k bs = withKeysSt ks b (s.setVFrom k bs) := by
  induction bs generalizing s k with
  | nil => rfl
  | cons c bs ih => exact ih (s.setV (BitVec.ofNat 4 k) c) (k + 1)

theorem attempt_withKeysSt {α : Type} (r : Except FaultInfo α) {k k' : α → State}
    (hk : ∀ a, k' a = withKeysSt ks b (k a)) :
    (withKeysSt ks b s).attempt r k' = mapNext (withKeysSt ks b) (s.attempt r k) := by
  cases r with
  | ok a => exact congrArg Host.Outcome.next (hk a)
  | error e => rfl

theorem skipIf_withKeysSt (c : Bool) :
    (withKeysSt ks b s).skipIf c = mapNext (withKeysSt ks b) (s.skipIf c) := by
  cases c with
  | false => rfl
  | true => exact attempt_withKeysSt ks b s _ fun _ => rfl

theorem exec_rand_withKeysSt (x : RegIdx) (nn : Byte) :
    exec (.rand x nn) (withKeysSt ks b s) = mapNext (withKeysSt ks b) (exec (.rand x nn) s) := by
  obtain ⟨v, pc, i, stack, dt, st, mem, fb, keys, status, cfg, inputs, rndIn, rndDraws⟩ := s
  cases rndIn <;> rfl

end withKeysSt

/-- The instruction looks at the key flags. -/
def readsKeys : Instr → Bool
  | .keyEq _ | .keyNeq _ | .waitKey _ => true
  | _ => false

/-- An instruction other than SetSound does the same to all the other state under any sound timer, and under any key
flags if it does not read them. -/
theorem exec_withKeysSt {i : Instr} (hst : ∀ x, i ≠ .setSound x) {s : State} {ks : KeyFlags}
    (hks : readsKeys i = true → ks = s.keys) (b : Byte) :
    exec i (withKeysSt ks b s) = mapNext (withKeysSt ks b) (exec i s) := by
  cases i with
  | setSound x => exact absurd rfl (hst x)
  | clear | jump | setNum | addNum | set | or | and | xor | getDelay | setIdx | setDelay => rfl
  | add | sub | subb | shr | shl => exact congrArg Host.Outcome.next (writeRF_withKeysSt ..)
  | rand => exact exec_rand_withKeysSt ..
  | eqNum | neqNum | eq | neq => exact skipIf_withKeysSt ..
  | jumpV0 | addIdx | setSprite | storeBcd | store | draw => exact attempt_withKeysSt _ _ _ _ fun _ => rfl
  | load => exact attempt_withKeysSt _ _ _ _ fun _ => setVFrom_withKeysSt ..
  | call nnn =>
    by_cases hfull : s.cfg.stackDepth = some s.stack.length
    · rw [exec_call_of_full hfull, exec_call_of_full (s := withKeysSt ks b s) hfull]; rfl
    · rw [exec_call_of_room hfull, exec_call_of_room (s := withKeysSt ks b s) hfull]; rfl
  | ret =>
    cases hstack : s.stack with
    | nil => rw [exec_ret_of_nil hstack, exec_ret_of_nil (s := withKeysSt ks b s) hstack]; rfl
    | cons a rest => rw [exec_ret_of_cons hstack, exec_ret_of_cons (s := withKeysSt ks b s) hstack]; rfl
  | keyEq x | keyNeq x =>
    obtain rfl := hks rfl
    have hnamed : (withKeysSt s.keys b s).keyNamedBy x = s.keyNamedBy x := rfl
    simp only [exec, execKeyEq, execKeyNeq, hnamed]
    cases s.keyNamedBy x with
    | ok k => exact skipIf_withKeysSt ..
    | error e => rfl
  | waitKey x =>
    obtain rfl := hks rfl
    have hpick : (withKeysSt s.keys b s).pickKey = s.pickKey := rfl
    simp only [exec, execWaitKey, hpick]
    cases s.pickKey with
    | some k => rfl
    | none => exact attempt_withKeysSt _ _ _ _ fun _ => rfl

theorem exists_eq_of_readsKeys {i : Instr} (h : readsKeys i = true) :
    (∃ x, i = .keyEq x) ∨ (∃ x, i = .keyNeq x) ∨ ∃ x, i = .waitKey x := by
  cases i <;> simp_all [readsKeys]

theorem mapNext_congr {f g : State → State} {r : Result} (h : ∀ t, r = .next t → f t = g t) :
    mapNext f r = mapNext g r := by
  cases r with
  | next t => exact congrArg Host.Outcome.next (h t rfl)
  | fault e => rfl
  | refused e => rfl

theorem mapNext_mapNext (f g : State → State) (r : Result) : mapNext g (mapNext f r) = mapNext (g ∘ f) r := by
  cases r <;> rfl

/-- An instruction other than SetSound leaves ST alone, so only its key flags tell the two states apart. -/
theorem exec_withKeys {i : Instr} (hst : ∀ x, i ≠ .setSound x) {s : State} {ks : KeyFlags}
    (hks : readsKeys i = true → ks = s.keys) :
    exec i { s with keys := ks } = mapNext (fun t => { t with keys := ks }) (exec i s) := by
  refine (exec_withKeysSt hst hks s.st).trans (mapNext_congr fun t ht => ?_)
  obtain ⟨pc, hframe⟩ := exec_frame ht
  have hkept : t.st = s.st := hframe.st fun hmem => (st_mem_writesParts hmem).elim hst
  rw [withKeysSt, ← hkept]

/-- Settles O23: of the three effects of a step only an event of the host touches the key flags. -/
theorem keysAreChangedByTheHostAndReadByThreeInstructions :
    Obligations.KeysAreChangedByTheHostAndReadByThreeInstructions := by
  refine ⟨fun s t h hne => ?writers, fun i s ks hkeyEq hkeyNeq hwaitKey => ?readers⟩
  case writers =>
    obtain ⟨e, -, rfl⟩ | hkept | ⟨d, e, ks, rfl, rfl | hset⟩ := step_next_cases h
    · exact absurd rfl hne
    · exact absurd hkept.keys hne
    · exact absurd rfl hne
    · exact hset
  case readers =>
    by_cases hst : ∀ x, i ≠ .setSound x
    · refine exec_withKeys hst fun hreads => ?_
      obtain ⟨x, rfl⟩ | ⟨x, rfl⟩ | ⟨x, rfl⟩ := exists_eq_of_readsKeys hreads
      · exact absurd rfl (hkeyEq x)
      · exact absurd rfl (hkeyNeq x)
      · exact absurd rfl (hwaitKey x)
    · obtain ⟨x, rfl⟩ := not_forall_not.1 hst
      rfl

/-- Settles O24: SetSound replaces ST without a look at it, and every other instruction carries it along. -/
theorem noInstructionReadsTheSoundTimer : Obligations.NoInstructionReadsTheSoundTimer := by
  intro i s b
  by_cases hst : ∀ x, i ≠ .setSound x
  · have hcarried : exec i { s with st := b } = mapNext (withKeysSt s.keys b) (exec i s) :=
      exec_withKeysSt hst (fun _ => rfl) b
    rw [hcarried, mapNext_mapNext]
    refine mapNext_congr fun t ht => ?_
    obtain ⟨pc, hframe⟩ := exec_frame ht
    have hkept : t.keys = s.keys := hframe.keys
    rw [Function.comp_apply, withKeysSt, ← hkept]
  · obtain ⟨x, rfl⟩ := not_forall_not.1 hst
    rfl

end Sys2Proof.Proofs
end
